-- ==== Sys2Proof/Word.lean ====
section
/-! DEFINITION. The word types of the engine and the bit sequences its functions work on (00_scope.md R7, R9).

A register or port is a bit vector of its own width (10_state.md R39: "Widths are part of a register's type").
A BitSequence of the function layer is a list, index 0 first, whose length the functions check
(60_exceptions.md R203: "a single dynamically-sized container guarded by assertions at every boundary"). -/

namespace Sys2Proof

/-- A BitSequence: "an ordered sequence of Bit values", element 0 first (R9, R17). -/
abbrev BitSeq := List Bool

/-- "a 64-bit unsigned integer representing one plaintext or ciphertext unit" (R17). -/
abbrev Block := BitVec 64

/-- "a 64-bit unsigned integer; only 56 bits … are cryptographically significant" (R17). -/
abbrev Key := BitVec 64

/-- The 48-bit per-round key material on a port or in a register, element 0 in bit 47 (R13). -/
abbrev Subkey := BitVec 48

/-- A 32-bit half block on a port or in a register, element 0 in bit 31 (R13). -/
abbrev Half := BitVec 32

/-- Why a function of the source gives no result. The first two are the source's "Two error kinds"
(60_exceptions.md R200); the third is R212 (e): an argument outside the function's domain, which is
refused (93_implementation_defined.md U1, U2). -/
inductive Abort where
  /-- `raise InvalidRound` (R202). -/
  | invalidRound
  /-- `raise LengthMismatch` (R201). -/
  | lengthMismatch
  /-- Refused, no result (R111, R117, R212 (e)). -/
  | outsideDomain
deriving DecidableEq, Repr

/-- The result of a function that may abort: the complete value, or the reason and no value
(60_exceptions.md R206). -/
abbrev Res (α : Type) := Except Abort α

/-- The reason a computation aborted, if it did. -/
def Res.aborts {α : Type} : Res α → Option Abort
  | .ok _ => none
  | .error e => some e

/-- The value of a computation, if it gave one. -/
def Res.value {α : Type} : Res α → Option α
  | .ok a => some a
  | .error _ => none

end Sys2Proof
end

