-- ==== Sys2Proof/Config.lean ====
section
/-! DEFINITION. The codes and counts this hardware fixes (00_scope.md R7, R8), and the free values: what the
registers OP, KEY, L, R, I hold after a reset step, which the spec leaves unspecified (10_state.md R37;
93_implementation_defined.md H1: "any value"). -/

namespace Sys2Proof.Config

/-- `ROUNDS`: "number of rounds; valid round numbers are 1..16" (R7). -/
def rounds : Nat := 16

/-- Opcode of ENCIPHER (30_encoding.md R82). -/
def opEncipher : BitVec 2 := 0b00#2
/-- Opcode of DECIPHER (R82). -/
def opDecipher : BitVec 2 := 0b01#2
/-- Opcode of KEYSCHED (R82). -/
def opKeysched : BitVec 2 := 0b10#2
/-- Opcode of FROUND (R82). -/
def opFround : BitVec 2 := 0b11#2

/-- `err` code `NONE` (10_state.md R29). -/
def errNone : BitVec 2 := 0#2
/-- `err` code `INVALID_ROUND` (R29, 60_exceptions.md R202). -/
def errInvalidRound : BitVec 2 := 1#2
/-- `err` code `LENGTH_MISMATCH` (R29, R201); "never produced by any command of this hardware". -/
def errLengthMismatch : BitVec 2 := 2#2

/-! Free values (log 4): what the n-th reset step leaves in the registers that R37 calls unspecified.
Nothing constrains them. -/

/-- What `OP` holds after a reset step: unspecified (R37). -/
opaque freeOp : Nat → BitVec 2
/-- What `KEY` holds after a reset step: unspecified (R37). -/
opaque freeKey : Nat → BitVec 64
/-- What `L` holds after a reset step: unspecified (R37). -/
opaque freeL : Nat → BitVec 32
/-- What `R` holds after a reset step: unspecified (R37). -/
opaque freeR : Nat → BitVec 32
/-- What `I` holds after a reset step: unspecified (R37). -/
opaque freeI : Nat → BitVec 5

end Sys2Proof.Config
end

