-- ==== Sys2Proof/Syntax.lean ====
section
/-! DEFINITION. The four commands with their operands (30_encoding.md R80 to R82), the command ports they
are presented on (10_state.md R21), and the notation of programs (R94, R95). -/

namespace Sys2Proof

/-- The direction of `process`: "`mode`, `Encipher` or `Decipher`" (44_engine.md R180). -/
inductive Mode where
  | encipher
  | decipher
deriving DecidableEq, Repr

/-- A command: "one opcode value on the port `op` together with the values on the operand ports that
opcode reads" (R80). One constructor per row of the opcode table; every operand value is legal (R91). -/
inductive Instr where
  /-- `ENCIPHER block, key` (R182), format P, op = 00. -/
  | encipher (block : Block) (key : Key)
  /-- `DECIPHER block, key` (R183), format P, op = 01. -/
  | decipher (block : Block) (key : Key)
  /-- `KEYSCHED key, round` (R158), format K, op = 10; the round operand is 8 bits, 0..255 (R86). -/
  | keysched (key : Key) (round : BitVec 8)
  /-- `FROUND half, subkey` (R172), format F, op = 11. -/
  | fround (half : Half) (subkey : Subkey)
deriving DecidableEq, Repr

/-- The opcode port and the operand ports, "each on its own port" (R80, R21). -/
structure CommandPorts where
  /-- `op`, 2 bits. -/
  op       : BitVec 2
  /-- `block_in`, 64 bits. -/
  blockIn  : BitVec 64
  /-- `key_in`, 64 bits. -/
  keyIn    : BitVec 64
  /-- `round_in`, 8 bits. -/
  roundIn  : BitVec 8
  /-- `half_in`, 32 bits. -/
  halfIn   : BitVec 32
  /-- `subkey_in`, 48 bits. -/
  subkeyIn : BitVec 48
deriving DecidableEq, Repr

/-! Programs (R94, R95): what the host writes down, before it drives any port. -/

/-- An operand of a written command: "a literal or a name bound by an earlier `->`" (R94). -/
inductive Arg where
  | lit (value : Nat)
  | ref (name : String)
deriving DecidableEq, Repr

/-- A written command: the four mnemonics and the pseudo-command `PROCESS block, key, mode` (R94). -/
inductive Command where
  | encipher (block key : Arg)
  | decipher (block key : Arg)
  | keysched (key round : Arg)
  | fround (half subkey : Arg)
  | process (block key : Arg) (mode : Mode)
deriving DecidableEq, Repr

/-- One line of a program: a command and "optionally `-> name` to name the result" (R94). -/
structure Line where
  command : Command
  dest    : Option String
deriving DecidableEq, Repr

/-- "A program is a finite sequence of commands." (R95) -/
abbrev Program := List Line

end Sys2Proof
end

