-- ==== Sys2Proof/WellFormed.lean ====
section
/-! DEFINITION. Well-formedness. A command of type `Instr` needs no check: "There is no illegal, reserved, hint or
custom opcode" and every operand value is legal (30_encoding.md R91), and each operand has its port's width by type.
What can be ill-formed is a WRITTEN program (R94): a literal that does not fit its port (00_scope.md R12; R207: never
truncated), a name no earlier line binds, or a name whose result has another width than the port (10_state.md R39). -/

namespace Sys2Proof

/-- The width of the result port of a written command (R81). -/
def Command.resultWidth : Command → Nat
  | .encipher _ _ => 64
  | .decipher _ _ => 64
  | .keysched _ _ => 48
  | .fround _ _ => 32
  | .process _ _ _ => 64

/-- Whether an operand can be put on a port of `w` bits, given the names bound so far and the widths of their results. -/
def Arg.wf (bound : List (String × Nat)) (w : Nat) : Arg → Bool
  | .lit v => decide (v < 2 ^ w)
  | .ref n => bound.lookup n == some w

/-- Whether every operand of a written command fits its port (R81). -/
def Command.wf (bound : List (String × Nat)) : Command → Bool
  | .encipher b k => b.wf bound 64 && k.wf bound 64
  | .decipher b k => b.wf bound 64 && k.wf bound 64
  | .keysched k r => k.wf bound 64 && r.wf bound 8
  | .fround h k => h.wf bound 32 && k.wf bound 48
  | .process b k _ => b.wf bound 64 && k.wf bound 64

/-- The names bound after a line; the latest binding of a name counts. Whether the line's command will end with an error is not
a matter of its form (log 15). -/
def Line.binds (bound : List (String × Nat)) (ln : Line) : List (String × Nat) :=
  match ln.dest with
  | some n => (n, ln.command.resultWidth) :: bound
  | none => bound

/-- Whether a program is well-formed, given the names bound before it. -/
def Program.wf (bound : List (String × Nat)) : Program → Bool
  | [] => true
  | ln :: rest => ln.command.wf bound && Program.wf (ln.binds bound) rest

end Sys2Proof
end

