-- ==== Sys2Proof/Decode.lean ====
section
/-! DEFINITION. The command decoder, total on the 2-bit opcode (30_encoding.md R84: "There is no invalid verdict"), and
the encoder written from the same opcode map (R82) and port formats (R81). -/

namespace Sys2Proof

/-- The opcode bit that selects the direction: "`Encipher = 0`, `Decipher = 1`", carried as `op[0]` (R83). -/
def Mode.code : Mode → Bool
  | .encipher => false
  | .decipher => true

/-- The mode of a process operation: `OP[0]`, 0 = Encipher, 1 = Decipher (10_state.md R25; R83). -/
def modeOf (op : BitVec 2) : Mode :=
  if op.getLsbD 0 then .decipher else .encipher

/-- R84, line by line. Decoding reads only `op`; the operands are the values on the ports that opcode reads (R81). -/
def decode (c : CommandPorts) : Instr :=
  if c.op.getLsbD 1 = false then
    match modeOf c.op with
    | .encipher => .encipher c.blockIn c.keyIn
    | .decipher => .decipher c.blockIn c.keyIn
  else if c.op.getLsbD 0 = false then
    .keysched c.keyIn c.roundIn
  else
    .fround c.halfIn c.subkeyIn

/-- All command ports at zero. -/
def CommandPorts.zero : CommandPorts :=
  { op := 0#2, blockIn := 0#64, keyIn := 0#64, roundIn := 0#8, halfIn := 0#32, subkeyIn := 0#48 }

/-- The command ports with a command presented on them: its opcode (R82) and the operand ports it reads (R81); the
ports it does not read keep what they carry (R92: they "may carry any value"). -/
def encodeOnto (i : Instr) (c : CommandPorts) : CommandPorts :=
  match i with
  | .encipher b k => { c with op := Config.opEncipher, blockIn := b, keyIn := k }
  | .decipher b k => { c with op := Config.opDecipher, blockIn := b, keyIn := k }
  | .keysched k r => { c with op := Config.opKeysched, keyIn := k, roundIn := r }
  | .fround h k => { c with op := Config.opFround, halfIn := h, subkeyIn := k }

/-- The encoding of a command with zeros on the ports it does not read. -/
def encode (i : Instr) : CommandPorts := encodeOnto i .zero

/-- The pseudo-command `PROCESS block, key, mode` "stands for `ENCIPHER block, key` when `mode = Encipher` (0) and
`DECIPHER block, key` when `mode = Decipher` (1)" (R94). -/
def processInstr (block : Block) (key : Key) : Mode → Instr
  | .encipher => .encipher block key
  | .decipher => .decipher block key

/-- The command ports that carry the opcode-table word `w`: its two bits on `op`, operand words of zeros. -/
def CommandPorts.ofWord (w : Nat) : CommandPorts :=
  { CommandPorts.zero with op := BitVec.ofNat 2 w }

/-- What the decoder reads from the opcode-table word `w` of `nbits` bits. A word with a bit above `op[1]` is no word of
this hardware (R93: one command length, R80: "the 2-bit `op` alone"): none. -/
def decodeTableWord (nbits w : Nat) : Option Instr :=
  if w % 2 ^ nbits < 4 then some (decode (CommandPorts.ofWord (w % 2 ^ nbits))) else none

end Sys2Proof
end

