-- ==== Sys2Proof/Machine/State.lean ====
section
/-! DEFINITION. The state of one engine instance, the complete list of 10_state.md R20, with what the host drives on the
input ports (R21), and the state right after reset (R37). Plain data. -/

namespace Sys2Proof.Machine

/-- The four values of `ST` (10_state.md R28). -/
inductive SeqState where
  /-- "no operation since reset". -/
  | idle
  /-- "an `ENCIPHER` or `DECIPHER` is in progress". -/
  | busy
  /-- "the last operation finished without error; its result register has a value". -/
  | done
  /-- "the last operation ended with an error; no result register has a value". -/
  | fault
deriving DecidableEq, Repr

/-- The levels the host drives on the input ports in one step (R21); `clk` is not represented (R246). -/
structure Inputs where
  /-- `rst`: reset request (R230). -/
  rst   : Bool
  /-- `start`: command strobe, a level (R242). -/
  start : Bool
  /-- `op` and the operand ports. -/
  cmd   : CommandPorts
deriving DecidableEq, Repr

/-- The three result ports (R22, R31). -/
inductive ResultPort where
  | blockOut
  | subkeyOut
  | halfOut
deriving DecidableEq, Repr

/-- The state of the machine. The first ten fields are the engine's own, all of R20 "and nothing else"; the last three are
the model's (logs 2 and 4). A result register holds a value or no value (R33: "represent it as an absent option"). -/
structure State where
  /-- `ST`, the sequencer state (R28). -/
  st        : SeqState
  /-- `OP`, 2 bits: the opcode sampled at the last accept (R25). -/
  op        : BitVec 2
  /-- `KEY`, 64 bits: the key of the process operation in progress (R24). -/
  key       : BitVec 64
  /-- `L`, 32 bits: the source's `left` (R23). -/
  l         : BitVec 32
  /-- `R`, 32 bits: the source's `right` (R23). -/
  r         : BitVec 32
  /-- `I`, 5 bits: the source's loop counter, 1..17 (R27). -/
  i         : BitVec 5
  /-- `ERR`, 2 bits: the error code of the last finished operation (R29). -/
  err       : BitVec 2
  /-- `BLOCK_OUT`, 64 bits, or no value (R31, R33). -/
  blockOut  : Option (BitVec 64)
  /-- `SUBKEY_OUT`, 48 bits, or no value (R31, R33). -/
  subkeyOut : Option (BitVec 48)
  /-- `HALF_OUT`, 32 bits, or no value (R31, R33). -/
  halfOut   : Option (BitVec 32)
  /-- The host: the levels on the input ports now (log 2). -/
  pins      : Inputs
  /-- The host: the levels of the following steps, oldest first; when empty the levels stay (log 2). -/
  later     : List Inputs
  /-- Numbers the reset steps; the free values of `Config` are applied to it (log 4). -/
  fresh     : Nat
deriving DecidableEq, Repr

/-- Why the machine stops. Both are safe: the model says nothing where the spec says nothing. -/
inductive Fault where
  /-- Raised by `advance` in BUSY with I > 17: no step of 44_engine.md R189 is enabled. No reachable state is so (R38).
  Safe (log 7). -/
  | noStepEnabled
  /-- Raised by `readResult`: the host reads a result register that holds no value, "a fault of the host" (R33,
  60_exceptions.md R212 (c)). No step of the engine raises it. Safe. -/
  | readNoValue (port : ResultPort)
deriving DecidableEq, Repr

/-- Why something has no meaning in the model. All are safe: nothing follows from a refusal. -/
inductive Refusal where
  /-- An instruction that has no meaning yet, by its mnemonic; no arm of `exec` is so. Safe. -/
  | notModelled (mnemonic : String)
  /-- Raised by `settle` and by a written program's literal: an argument outside a function's domain, refused with no value
  (R212 (e)). No command reaches it from the ports (R111, R117). Safe. -/
  | outsideDomain
  /-- Raised by `argValue`: a written program uses a name that no earlier line bound (30_encoding.md R94), or whose
  latest line ended with an error (log 15). Safe. -/
  | unboundName (name : String)
deriving DecidableEq, Repr

/-- The host drives nothing: `rst = 0`, `start = 0`, zeros on the ports that then "mean nothing and are not decoded"
(R91). -/
def Inputs.quiet : Inputs := { rst := false, start := false, cmd := .zero }

/-- The state right after reset: R37. `OP`, `KEY`, `L`, `R`, `I` are unspecified there; zero is the model's own choice
(DESIGN CHOICE, log 3), and no rule reads them before an accept writes them (R38). The host drives nothing (log 2). -/
def State.reset : State :=
  { st := .idle, op := 0#2, key := 0#64, l := 0#32, r := 0#32, i := 0#5, err := Config.errNone
    blockOut := none, subkeyOut := none, halfOut := none
    pins := .quiet, later := [], fresh := 0 }

end Sys2Proof.Machine
end

