-- ==== Sys2Proof/Machine/BitVector.lean ====
section
/-! DEFINITION. The bit vector utilities of 40_bitvector.md, on sequences whose lengths are checked at every boundary
(20_memory.md R58): a mismatch is LengthMismatch, never truncated or padded (60_exceptions.md R207). -/

namespace Sys2Proof.Machine

/-- The `width` low bits of an integer, most significant first: `out[k] = value[width-1-k]` (R110). -/
def bitsOf (value width : Nat) : BitSeq :=
  (List.range width).map fun k => value.testBit (width - 1 - k)

/-- `intToBits(value, width)` (R110), defined for every width; a value that does not fit is refused (R111). -/
def intToBits (value width : Nat) : Res BitSeq :=
  if value < 2 ^ width then .ok (bitsOf value width) else .error .outsideDomain

/-- `bitsToInt(seq)`, MSB first: `v := 2*v + seq[k]` (R113). -/
def bitsToInt (s : BitSeq) : Nat :=
  s.foldl (fun v b => 2 * v + b.toNat) 0

/-- `xor(a, b)`, element by element; LengthMismatch when the lengths differ (R115). -/
def xorSeq (a b : BitSeq) : Res BitSeq :=
  if a.length = b.length then .ok (List.zipWith Bool.xor a b) else .error .lengthMismatch

/-- `and(a, b)`, element by element; LengthMismatch when the lengths differ (R116). No command uses it (R125). -/
def andSeq (a b : BitSeq) : Res BitSeq :=
  if a.length = b.length then .ok (List.zipWith Bool.and a b) else .error .lengthMismatch

/-- `s[a..b)`, half-open (00_scope.md R10). -/
def slice (s : BitSeq) (a b : Nat) : BitSeq :=
  (s.drop a).take (b - a)

/-- `rotateLeft(seq, amount, wrapAround)` (R117); an amount above the length is refused
(93_implementation_defined.md U2). -/
def rotateLeft (s : BitSeq) (amount : Nat) (wrapAround : Bool) : Res BitSeq :=
  if amount ≤ s.length then
    .ok (s.drop amount ++ if wrapAround then s.take amount else List.replicate amount false)
  else .error .outsideDomain

/-- An index table: the length of the sequence it is applied to (R118, R58) and its 1-based entries in position order
(00_scope.md R11). -/
structure Table where
  inLen   : Nat
  entries : List Nat
deriving DecidableEq, Repr

/-- `TabRead(T, k)`: entry `k`, 0-based (00_scope.md R14). Outside the table there is no value (20_memory.md R57). -/
def tabRead (entries : List Nat) (k : Nat) : Res Nat :=
  match entries[k]? with
  | some v => .ok v
  | none => .error .outsideDomain

/-- `permute(seq, T)` (R118): `out[k] = seq[T[k] - 1]` for every position `k` in order; LengthMismatch when the sequence
does not have the table's input length. Every entry is then in range (R57, `Laws`), so the default is never taken. -/
def permute (s : BitSeq) (T : Table) : Res BitSeq :=
  if s.length = T.inLen then .ok (T.entries.map fun j => s.getD (j - 1) false) else .error .lengthMismatch

/-- `split(seq, n)` of a sequence of length `2n` into halves (R119). -/
def split (s : BitSeq) (n : Nat) : Res (BitSeq × BitSeq) :=
  if s.length = 2 * n then .ok (slice s 0 n, slice s n (2 * n)) else .error .lengthMismatch

/-- The cut of a sequence of length `count * n` into `count` consecutive groups of `n` (R119: 48 into eight 6-bit
groups): group `g` is `s[n*g..n*g+n)` (30_encoding.md R89). -/
def cut (s : BitSeq) (n count : Nat) : Res (List BitSeq) :=
  if s.length = n * count then .ok ((List.range count).map fun g => slice s (n * g) (n * g + n))
  else .error .lengthMismatch

end Sys2Proof.Machine
end

