-- ==== Sys2Proof/Machine/Operands.lean ====
section
/-! DEFINITION. Operand assembly (30_encoding.md section 2): sequences on ports and in registers, the effective round
number, the S-box address. -/

namespace Sys2Proof.Machine

/-- The sequence a port or register of width `w` carries: element `k` is bit `w-1-k` (00_scope.md R13). On `block_in`,
`key_in` (R85), `half_in`, `subkey_in` (R87) and on L, R, KEY. -/
def toSeq {w : Nat} (v : BitVec w) : BitSeq := bitsOf v.toNat w

/-- A sequence put on a port or in a register of width `w`, its integer value being `bitsToInt` of the sequence (R13,
R90); LengthMismatch unless it has exactly `w` elements (R58). -/
def pack (w : Nat) (s : BitSeq) : Res (BitVec w) :=
  if s.length = w then .ok (BitVec.ofNat w (bitsToInt s)) else .error .lengthMismatch

/-- The effective round number: "`r = i` if `mode = Encipher`, `r = 17 - i` if `mode = Decipher`" (R88). -/
def effectiveRound (mode : Mode) (i : Nat) : Nat :=
  match mode with
  | .encipher => i
  | .decipher => 17 - i

/-- `row = (grp[0] << 1) | grp[5]` (20_memory.md R52). -/
def sboxRow (grp : BitSeq) : Nat := 2 * (grp.getD 0 false).toNat + (grp.getD 5 false).toNat

/-- `col = bitsToInt(grp[1..5))`, the middle four bits (R52; 90_conflicts.md C1). -/
def sboxCol (grp : BitSeq) : Nat := bitsToInt (slice grp 1 5)

end Sys2Proof.Machine
end

