-- ==== Sys2Proof/Machine/Feistel.lean ====
section
/-! DEFINITION. The Feistel round function (43_feistel.md R165 to R170), a pure function. -/

namespace Sys2Proof.Machine

/-- `sbox(g, grp)`: one S-box lookup, emitting exactly 4 bits (R168); a group has 6 elements (20_memory.md R58). -/
def sbox (g : Nat) (grp : BitSeq) : Res BitSeq :=
  if grp.length = 6 then do
    let v ← sboxRead g (sboxRow grp) (sboxCol grp)
    intToBits v 4
  else .error .lengthMismatch

/-- The lookups of consecutive groups, group `g` in box `g`, joined in order (R168). -/
def sboxes : Nat → List BitSeq → Res BitSeq
  | _, [] => .ok []
  | g, grp :: rest => do
    let a ← sbox g grp
    let b ← sboxes (g + 1) rest
    return a ++ b

/-- Step 3, substitution: eight consecutive 6-bit groups, eight boxes, 32 bits (R168). -/
def substitute (x : BitSeq) : Res BitSeq := do
  let groups ← cut x 6 8
  sboxes 0 groups

/-- `FeistelRound(R, subkey)` (R170): both widths first, as one check (R165), then expansion, key mixing, substitution and
permutation (R166 to R169). -/
def feistelRound (right subkey : BitSeq) : Res BitSeq :=
  if right.length = 32 ∧ subkey.length = 48 then do
    let e ← permute right tableE
    let x ← xorSeq e subkey
    let s ← substitute x
    permute s tableP
  else .error .lengthMismatch

end Sys2Proof.Machine
end

