-- ==== Sys2Proof/Machine/KeySchedule.lean ====
section
/-! DEFINITION. The key schedule generator (42_key_schedule.md R150 to R152), a pure function of the key and the round
number; C and D are values inside it, not registers (10_state.md R26). -/

namespace Sys2Proof.Machine

/-- Steps 1 to 3 of R152: the halves C and D of the PC-1 output of the key. -/
def keyHalves (key : Key) : Res (BitSeq × BitSeq) := do
  let k64 ← intToBits key.toNat 64
  let k56 ← permute k64 tablePC1
  split k56 28

/-- Step 4 of R152: `n` iterations of the loop, iteration `j` rotating both halves left by `SHIFT[j]` with wrap-around,
from the original halves. -/
def rotateHalves : Nat → BitSeq → BitSeq → Res (BitSeq × BitSeq)
  | 0, c, d => .ok (c, d)
  | j + 1, c, d => do
    let (c, d) ← rotateHalves j c d
    let amount ← tabRead tableSHIFT j
    let c ← rotateLeft c amount true
    let d ← rotateLeft d amount true
    return (c, d)

/-- `KeySchedule(key, r)` (R152): the round check first (R151), then the six steps. -/
def keySchedule (key : Key) (r : Nat) : Res BitSeq :=
  if r = 0 ∨ r > Config.rounds then .error .invalidRound
  else do
    let (c, d) ← keyHalves key
    let (c, d) ← rotateHalves r c d
    permute (c ++ d) tablePC2

end Sys2Proof.Machine
end

