-- ==== Sys2Proof/Machine/Engine.lean ====
section
/-! DEFINITION. The function `process` (44_engine.md R180, R181), cut into the parts that the steps of the engine also
evaluate: steps 1 and 2, the loop body, steps 4 to 6. -/

namespace Sys2Proof.Machine

/-- Steps 1 and 2 of R181: `left` and `right` of the permuted block (also R186). -/
def initialHalves (block : Block) : Res (BitSeq × BitSeq) := do
  let bits ← intToBits block.toNat 64
  let permuted ← permute bits tableIP
  split permuted 32

/-- The loop body of R181 with effective round number `r`: both new halves from the old ones (also R187). -/
def roundBody (key : Key) (r : Nat) (left right : BitSeq) : Res (BitSeq × BitSeq) := do
  let subkey ← keySchedule key r
  let f ← feistelRound right subkey
  let newRight ← xorSeq f left
  return (right, newRight)

/-- Step 3 of R181: the halves after `n` iterations, loop counter 1 to `n`. -/
def rounds (key : Key) (mode : Mode) : Nat → BitSeq → BitSeq → Res (BitSeq × BitSeq)
  | 0, left, right => .ok (left, right)
  | n + 1, left, right => do
    let (left, right) ← rounds key mode n left right
    roundBody key (effectiveRound mode (n + 1)) left right

/-- Steps 4 to 6 of R181: `right` first (R184), the final permutation, the integer (also R188). -/
def finalBlock (left right : BitSeq) : Res Block := do
  let out ← permute (right ++ left) tableFP
  pack 64 out

/-- `process(block, key, mode)` (R181). -/
def process (block : Block) (key : Key) (mode : Mode) : Res Block := do
  let (left, right) ← initialHalves block
  let (left, right) ← rounds key mode Config.rounds left right
  finalBlock left right

end Sys2Proof.Machine
end

