-- ==== Sys2Proof/Machine/Flags.lean ====
section
/-! DEFINITION. The status vector and the output ports (10_state.md R22, R29), and the error codes (R29). The engine has
no condition codes or arithmetic flags. -/

namespace Sys2Proof.Machine

/-- `busy`: "1 when `ST = BUSY`, else 0" (R22). -/
def busy (s : State) : Bool := decide (s.st = .busy)

/-- `done`: "1 when `ST = DONE` or `ST = FAULT`, else 0" (R22). -/
def done (s : State) : Bool := decide (s.st = .done ∨ s.st = .fault)

/-- The code an error kind is reported with (R29; 60_exceptions.md R201, R202). An argument outside a domain is no error
kind of the hardware and has no code (R200, R212 (e)). -/
def errCode : Abort → Option (BitVec 2)
  | .invalidRound => some Config.errInvalidRound
  | .lengthMismatch => some Config.errLengthMismatch
  | .outsideDomain => none

/-- The output ports (R22). A result port shows its register: a value or no value. -/
structure Outputs where
  busy      : Bool
  done      : Bool
  err       : BitVec 2
  blockOut  : Option (BitVec 64)
  subkeyOut : Option (BitVec 48)
  halfOut   : Option (BitVec 32)
deriving DecidableEq, Repr

/-- What the host sees in a state (R22); nothing else is observable (60_exceptions.md R220). -/
def outputs (s : State) : Outputs :=
  { busy := busy s, done := done s, err := s.err
    blockOut := s.blockOut, subkeyOut := s.subkeyOut, halfOut := s.halfOut }

end Sys2Proof.Machine
end

