-- ==== Sys2Proof/Machine/Ops.lean ====
section
/-! DEFINITION. The operations the steps of the engine share: sampling a command, the error report (the analogue of taking
an exception, 60_exceptions.md R204) and its clearing (the analogue of the return, R209), the reset, round and final
steps (70_reset_and_hazards.md R230; 44_engine.md R187, R188), and the host's driving of the ports. -/

namespace Sys2Proof.Machine

/-- What a step that can stop does with a next state. -/
def onNext {α β : Type} (o : Host.Outcome α Fault Refusal) (f : α → Host.Outcome β Fault Refusal) :
    Host.Outcome β Fault Refusal :=
  match o with
  | .next a => f a
  | .fault e => .fault e
  | .refused e => .refused e

/-- "`BLOCK_OUT, SUBKEY_OUT, HALF_OUT <- no value`" (R31, R33). -/
def invalidateResults (s : State) : State :=
  { s with blockOut := none, subkeyOut := none, halfOut := none }

/-- Error report (R204): no result has a value, `ERR` is the code, `ST` is FAULT; nothing is saved (R205) and control goes
nowhere. -/
def reportError (code : BitVec 2) (s : State) : State :=
  { invalidateResults s with err := code, st := .fault }

/-- What every accept step does first: `OP` is sampled, the results hold no value, `ERR` is cleared (R158, R172, R186).
Clearing `ERR` is all the recovery from an error there is (R209). -/
def beginAccept (op : BitVec 2) (s : State) : State :=
  { invalidateResults s with op := op, err := Config.errNone }

/-- The end of a step that evaluates a function of the source: the complete result is written, or the error is reported and
no result is (R206); an argument outside a function's domain is refused (R212 (e)). `s` is the state in which the error
would be reported. -/
def settle (s : State) : Res State → Host.Outcome State Fault Refusal
  | .ok t => .next t
  | .error e =>
    match errCode e with
    | some code => .next (reportError code s)
    | none => .refused .outsideDomain

/-- The reset step (R230): IDLE, no error, no results; OP, KEY, L, R, I are unspecified (R37): free values (log 4). -/
def resetStep (s : State) : State :=
  { invalidateResults s with
    st := .idle, err := Config.errNone
    op := Config.freeOp s.fresh, key := Config.freeKey s.fresh
    l := Config.freeL s.fresh, r := Config.freeR s.fresh, i := Config.freeI s.fresh
    fresh := s.fresh + 1 }

/-- The round step (R187): one iteration of the loop of `process`, `L` and `R` written together from the old values. -/
def roundStep (s : State) : Host.Outcome State Fault Refusal :=
  settle s do
    let (left, right) ← roundBody s.key (effectiveRound (modeOf s.op) s.i.toNat) (toSeq s.l) (toSeq s.r)
    let l ← pack 32 left
    let r ← pack 32 right
    return { s with l := l, r := r, i := s.i + 1#5 }

/-- The final step (R188): the result is written and `ST` is DONE in one step. -/
def finalStep (s : State) : Host.Outcome State Fault Refusal :=
  settle s do
    let out ← finalBlock (toSeq s.l) (toSeq s.r)
    return { s with blockOut := some out, st := .done }

/-- The one step enabled in BUSY (R189): the round step while `I <= 16`, the final step at `I = 17`. Above that no step is
enabled; no reachable state is there (R38; log 7). -/
def advance (s : State) : Host.Outcome State Fault Refusal :=
  if s.i.toNat ≤ Config.rounds then roundStep s
  else if s.i.toNat = Config.rounds + 1 then finalStep s
  else .fault .noStepEnabled

/-- A command presented with `start = 1`: accepted in each of the three ready states alike (R28); in BUSY it "is not
accepted, not queued and not remembered" (70_reset_and_hazards.md R241), it has no step of its own (60_exceptions.md R212 (d)),
and what the model answers for it is the step of the operation in progress (DEDUCED, log 5). -/
def present (accept : State → Host.Outcome State Fault Refusal) (s : State) : Host.Outcome State Fault Refusal :=
  match s.st with
  | .busy => advance s
  | .idle => accept s
  | .done => accept s
  | .fault => accept s

/-- A step with `start = 0`: in a ready state nothing changes, in BUSY the operation goes on (R189). -/
def tick (s : State) : Host.Outcome State Fault Refusal :=
  match s.st with
  | .busy => advance s
  | .idle => .next s
  | .done => .next s
  | .fault => .next s

/-- The host's levels for the next step; when it has no more to drive, the levels stay (log 2). -/
def nextPins (s : State) : State :=
  match s.later with
  | [] => s
  | p :: rest => { s with pins := p, later := rest }

/-- The host drives `p` now and `rest` in the following steps. -/
def drive (p : Inputs) (rest : List Inputs) (s : State) : State :=
  { s with pins := p, later := rest }

end Sys2Proof.Machine
end

