-- ==== Sys2Proof/Machine/Process.lean ====
section
/-! DEFINITION. The meanings of ENCIPHER and DECIPHER: the accept step of a process command (44_engine.md R186); the round
and final steps that follow it are `advance` (R187, R188). -/

namespace Sys2Proof.Machine

/-- The accept step of a process command (R186): steps 1 and 2 of `process` and the sampling of the operands. -/
def acceptProcess (op : BitVec 2) (block : Block) (key : Key) (s : State) : Host.Outcome State Fault Refusal :=
  let s := beginAccept op s
  settle s do
    let (left, right) ← initialHalves block
    let l ← pack 32 left
    let r ← pack 32 right
    return { s with key := key, l := l, r := r, i := 1#5, st := .busy }

/-- `ENCIPHER block, key` (R182). -/
def execEncipher (block : Block) (key : Key) (s : State) : Host.Outcome State Fault Refusal :=
  present (acceptProcess Config.opEncipher block key) s

/-- `DECIPHER block, key` (R183). -/
def execDecipher (block : Block) (key : Key) (s : State) : Host.Outcome State Fault Refusal :=
  present (acceptProcess Config.opDecipher block key) s

end Sys2Proof.Machine
end

