-- ==== Sys2Proof/Machine/SubUnits.lean ====
section
/-! DEFINITION. The meanings of KEYSCHED (42_key_schedule.md R158) and FROUND (43_feistel.md R172), each complete in its
accept step. -/

namespace Sys2Proof.Machine

/-- The accept step of KEYSCHED (R158): the subkey, or InvalidRound and no result. `L`, `R`, `I`, `KEY` are not touched. -/
def acceptKeysched (key : Key) (round : BitVec 8) (s : State) : Host.Outcome State Fault Refusal :=
  let s := beginAccept Config.opKeysched s
  settle s do
    let subkey ← keySchedule key round.toNat
    let out ← pack 48 subkey
    return { s with subkeyOut := some out, st := .done }

/-- `KEYSCHED key, round` (R158). -/
def execKeysched (key : Key) (round : BitVec 8) (s : State) : Host.Outcome State Fault Refusal :=
  present (acceptKeysched key round) s

/-- The accept step of FROUND (R172). `L`, `R`, `I`, `KEY` are not touched. -/
def acceptFround (half : Half) (subkey : Subkey) (s : State) : Host.Outcome State Fault Refusal :=
  let s := beginAccept Config.opFround s
  settle s do
    let f ← feistelRound (toSeq half) (toSeq subkey)
    let out ← pack 32 f
    return { s with halfOut := some out, st := .done }

/-- `FROUND half, subkey` (R172). -/
def execFround (half : Half) (subkey : Subkey) (s : State) : Host.Outcome State Fault Refusal :=
  present (acceptFround half subkey) s

end Sys2Proof.Machine
end

