-- ==== Sys2Proof/Machine/Dispatch.lean ====
section
/-! DEFINITION. One arm per command (30_encoding.md R82, R84): what the engine does in a step in which the command is
presented with start = 1 and rst = 0. -/

namespace Sys2Proof.Machine

def exec (i : Instr) (s : State) : Host.Outcome State Fault Refusal :=
  match i with
  | .encipher block key => Sys2Proof.Machine.execEncipher block key s
  | .decipher block key => Sys2Proof.Machine.execDecipher block key s
  | .keysched key round => Sys2Proof.Machine.execKeysched key round s
  | .fround half subkey => Sys2Proof.Machine.execFround half subkey s

end Sys2Proof.Machine
end

