-- ==== Sys2Proof/Machine/Step.lean ====
section
/-! DEFINITION. One step of the engine (44_engine.md R189), and a command placed where the next step takes it. -/

namespace Sys2Proof.Machine

/-- The engine's reaction to the levels on its input ports, in the order of R189's table: `rst` first, whatever else holds
(70_reset_and_hazards.md R230); then a command presented with `start = 1`; otherwise the step without a command. -/
def react (s : State) : Host.Outcome State Fault Refusal :=
  if s.pins.rst then .next (resetStep s)
  else if s.pins.start then exec (decode s.pins.cmd) s
  else tick s

/-- One step: the engine reacts, and the host drives its next levels (log 2). -/
def step (s : State) : Host.Outcome State Fault Refusal :=
  onNext (react s) fun t => .next (nextPins t)

/-- `s` with the opcode-table word `w` presented so that the very next step accepts it: `start = 1`, `rst = 0`, the word on
`op`, zeros on the operand ports, and a ready engine (a busy one accepts nothing, R241). -/
def State.withFetchWord (s : State) (nbits w : Nat) : State :=
  { s with
    st := if s.st = .busy then .idle else s.st
    pins := { rst := false, start := true, cmd := CommandPorts.ofWord (w % 2 ^ nbits) } }

end Sys2Proof.Machine
end

