-- ==== Sys2Proof/Machine/Protocol.lean ====
section
/-! DEFINITION. The host's side (70_reset_and_hazards.md section 5): reading a result (R243), one operation from its accept
to `done = 1` (30_encoding.md R95; R249), its observable outcome and the function-level meaning it must have (00_scope.md
R19), the written programs of R94 and R95, and the packing of bytes that R55 leaves to the host. None of it is a step of the
engine. -/

namespace Sys2Proof.Machine

/-! ## Results -/

/-- The value on a result port, with its width. -/
inductive Result where
  | block (v : BitVec 64)
  | subkey (v : BitVec 48)
  | half (v : BitVec 32)
deriving DecidableEq, Repr

/-- What the host gets by reading a result port: the register's value, or, when it holds none, a fault of the host (R33;
60_exceptions.md R212 (c)). -/
def readResult (port : ResultPort) (s : State) : Host.Outcome Result Fault Refusal :=
  match port with
  | .blockOut => match s.blockOut with
    | some v => .next (.block v)
    | none => .fault (.readNoValue .blockOut)
  | .subkeyOut => match s.subkeyOut with
    | some v => .next (.subkey v)
    | none => .fault (.readNoValue .subkeyOut)
  | .halfOut => match s.halfOut with
    | some v => .next (.half v)
    | none => .fault (.readNoValue .halfOut)

/-- The result port of a command (R81). -/
def resultPort : Instr → ResultPort
  | .encipher _ _ => .blockOut
  | .decipher _ _ => .blockOut
  | .keysched _ _ => .subkeyOut
  | .fround _ _ => .halfOut

/-- "the observable outcome of the operation is the triple (`err`, which result register has a value, that value)" (R249). -/
structure OpOutcome where
  err       : BitVec 2
  blockOut  : Option (BitVec 64)
  subkeyOut : Option (BitVec 48)
  halfOut   : Option (BitVec 32)
deriving DecidableEq, Repr

/-- The outcome the host observes in a state with `done = 1` (R249). -/
def outcome (s : State) : OpOutcome :=
  { err := s.err, blockOut := s.blockOut, subkeyOut := s.subkeyOut, halfOut := s.halfOut }

/-! ## The function level -/

/-- The function-level meaning of a command (R82): the value of `process`, `KeySchedule` or `FeistelRound` on its operands, or
the error that function raises (R19). -/
def functionLevel : Instr → Res Result
  | .encipher b k => do return .block (← process b k .encipher)
  | .decipher b k => do return .block (← process b k .decipher)
  | .keysched k r => do return .subkey (← pack 48 (← keySchedule k r.toNat))
  | .fround h k => do return .half (← pack 32 (← feistelRound (toSeq h) (toSeq k)))

/-- The outcome of an operation whose function gives `r`: its one result and `err = 0`, or no result and the code of the error
(R31, R204); none for what the hardware has no code for (R200). -/
def outcomeOf (r : Res Result) : Option OpOutcome :=
  match r with
  | .ok (.block v) => some { err := Config.errNone, blockOut := some v, subkeyOut := none, halfOut := none }
  | .ok (.subkey v) => some { err := Config.errNone, blockOut := none, subkeyOut := some v, halfOut := none }
  | .ok (.half v) => some { err := Config.errNone, blockOut := none, subkeyOut := none, halfOut := some v }
  | .error e => (errCode e).map fun c => { err := c, blockOut := none, subkeyOut := none, halfOut := none }

/-! ## One operation -/

/-- The ports with a command presented: `start = 1`, `rst = 0` (R80). -/
def Inputs.presenting (i : Instr) : Inputs := { rst := false, start := true, cmd := encode i }

/-- The host waits: steps until `done = 1`, at most `n` of them (R95). -/
def waitDone : Nat → State → Host.Outcome State Fault Refusal
  | 0, s => .next s
  | n + 1, s => if done s then .next s else onNext (step s) (waitDone n)

/-- One operation as the host drives it (R95, log 13): when the engine is busy it first waits for the running operation with
quiet ports; then it presents the command for exactly one step, lowers `start`, and waits for `done = 1`. The end is "the
first step after its accept in which `done = 1`" (R249); eighteen steps are enough (R189). -/
def issue (i : Instr) (s : State) : Host.Outcome State Fault Refusal :=
  onNext (if busy s then waitDone 17 (drive .quiet [] s) else .next s) fun ready =>
    onNext (step (drive (.presenting i) [.quiet] ready)) (waitDone 17)

/-! ## Written programs -/

/-- The integer value of a result (00_scope.md R13). -/
def Result.toNat : Result → Nat
  | .block v => v.toNat
  | .subkey v => v.toNat
  | .half v => v.toNat

/-- The width of a result. -/
def Result.width : Result → Nat
  | .block _ => 64
  | .subkey _ => 48
  | .half _ => 32

/-- The value an operand puts on a port of `w` bits: "a literal or a name bound by an earlier `->`; the host copies the named
result to the operand port" (R94). What does not fit is refused, never cut (R207). -/
def argValue (env : List (String × Result)) (w : Nat) : Arg → Host.Outcome (BitVec w) Fault Refusal
  | .lit v => if v < 2 ^ w then .next (BitVec.ofNat w v) else .refused .outsideDomain
  | .ref n =>
    match env.lookup n with
    | some r => if r.width = w then .next (BitVec.ofNat w r.toNat) else .refused .outsideDomain
    | none => .refused (.unboundName n)

/-- The command a written line stands for, `PROCESS` expanded (R94). -/
def commandInstr (env : List (String × Result)) : Command → Host.Outcome Instr Fault Refusal
  | .encipher b k =>
    onNext (argValue env 64 b) fun b => onNext (argValue env 64 k) fun k => .next (.encipher b k)
  | .decipher b k =>
    onNext (argValue env 64 b) fun b => onNext (argValue env 64 k) fun k => .next (.decipher b k)
  | .keysched k r =>
    onNext (argValue env 64 k) fun k => onNext (argValue env 8 r) fun r => .next (.keysched k r)
  | .fround h k =>
    onNext (argValue env 32 h) fun h => onNext (argValue env 48 k) fun k => .next (.fround h k)
  | .process b k m =>
    onNext (argValue env 64 b) fun b => onNext (argValue env 64 k) fun k => .next (processInstr b k m)

/-- The names bound after a line whose operation has ended in `s`. The host reads `err` and then the result (R95). With `err = 0`
the name of the line is bound to the result that the port of `i` shows. What a named line does after an error, which leaves no
result, R94 and R95 do not say: DESIGN CHOICE (log 15): the host reads no result (R243 lets it read one only while `err = 0`),
the name is bound to nothing, an earlier binding of it is dropped, and the program goes on. -/
def bindResult (dest : Option String) (i : Instr) (s : State) (env : List (String × Result)) :
    Host.Outcome (List (String × Result)) Fault Refusal :=
  match dest with
  | none => .next env
  | some n =>
    if s.err = Config.errNone then onNext (readResult (resultPort i) s) fun r => .next ((n, r) :: env)
    else .next (env.filter fun b => b.1 ≠ n)

/-- The host runs a program (R95): each command's operation to its end, one after the other; it reads a named result before
the next command invalidates it (`bindResult`). The outcomes in order, with the last state. An operand that cannot be put on its
port ends the run, and the outcomes before it are then not answered: DESIGN CHOICE (log 14). -/
def runProgram : Program → List (String × Result) → State → Host.Outcome (List OpOutcome × State) Fault Refusal
  | [], _, s => .next ([], s)
  | ln :: rest, env, s =>
    onNext (commandInstr env ln.command) fun i =>
    onNext (issue i s) fun t =>
    onNext (bindResult ln.dest i t env) fun env =>
    onNext (runProgram rest env t) fun (os, u) => .next (outcome t :: os, u)

/-- An integer as the notation writes it, in hexadecimal (R94; 00_scope.md R12). -/
def hexText (v : Nat) : String := "0x" ++ (String.ofList (Nat.toDigits 16 v)).toUpper

/-- An operand as written. -/
def argText : Arg → String
  | .lit v => hexText v
  | .ref n => n

/-- A command as written: "a mnemonic followed by its operands in the order of the source's function signature" (R94). -/
def commandText : Command → String
  | .encipher b k => "ENCIPHER  " ++ argText b ++ ", " ++ argText k
  | .decipher b k => "DECIPHER  " ++ argText b ++ ", " ++ argText k
  | .keysched k r => "KEYSCHED  " ++ argText k ++ ", " ++ argText r
  | .fround h k => "FROUND    " ++ argText h ++ ", " ++ argText k
  | .process b k m => "PROCESS   " ++ argText b ++ ", " ++ argText k ++ ", " ++
      match m with
      | .encipher => "Encipher"
      | .decipher => "Decipher"

/-- A line as written, with "optionally `-> name` to name the result" (R94). -/
def lineText (ln : Line) : String :=
  match ln.dest with
  | some n => commandText ln.command ++ " -> " ++ n
  | none => commandText ln.command

/-! ## Bytes -/

/-- The 64-bit integer of a block or key that a host keeps as eight bytes, first byte most significant: the packing R55
recommends to hosts (PRESUMED by the spec itself: general knowledge, G3; log 14). The engine has no bytes. -/
def hostPackBytes (b0 b1 b2 b3 b4 b5 b6 b7 : BitVec 8) : BitVec 64 :=
  b0 ++ b1 ++ b2 ++ b3 ++ b4 ++ b5 ++ b6 ++ b7

end Sys2Proof.Machine
end

