-- ==== Sys2Proof/Safety.lean ====
section
/-! DEFINITION. The terms claims use: a ready engine (10_state.md R28), the invariant of the reachable states (R38), a host
that does not reset (70_reset_and_hazards.md R250), what an instruction may change. -/

namespace Sys2Proof.Machine

/-- `IDLE`, `DONE` and `FAULT` are the three ready states (R28). -/
abbrev Ready (s : State) : Prop := s.st ≠ .busy

/-- No result register has a value (R38). -/
abbrev NoResult (s : State) : Prop := s.blockOut = none ∧ s.subkeyOut = none ∧ s.halfOut = none

/-- "exactly the result register of the operation named by `OP` has a value" (R38 (b)). -/
abbrev OnlyResultOfOp (s : State) : Prop :=
  (s.blockOut.isSome = true ↔ s.op.getLsbD 1 = false) ∧
  (s.subkeyOut.isSome = true ↔ s.op = Config.opKeysched) ∧
  (s.halfOut.isSome = true ↔ s.op = Config.opFround)

/-- The invariant of the reachable states, R38 (a) to (d). In BUSY it also holds that `ERR = 0` and that no result has a
value, which R31 and R186 give. That L, R, KEY, OP, I have values in BUSY is so by type. -/
abbrev StateInv (s : State) : Prop :=
  (s.st = .busy → s.op.getLsbD 1 = false ∧ 1 ≤ s.i.toNat ∧ s.i.toNat ≤ 17 ∧ s.err = 0#2 ∧ NoResult s) ∧
  (s.st = .done → s.err = 0#2 ∧ OnlyResultOfOp s) ∧
  (s.st = .fault → s.err = 1#2 ∧ s.op = Config.opKeysched ∧ NoResult s) ∧
  (s.st = .idle → s.err = 0#2 ∧ NoResult s)

/-- The host does not assert `rst` now or in the next `n` steps (R250). -/
abbrev NoResetFor (n : Nat) (s : State) : Prop :=
  s.pins.rst = false ∧ ∀ p ∈ s.later.take n, p.rst = false

/-- The working registers of a process operation are the same in both states (R158, R172). -/
abbrev SameWorking (s t : State) : Prop := t.key = s.key ∧ t.l = s.l ∧ t.r = s.r ∧ t.i = s.i

/-- What the host drives, and the model's counter, are the same in both states. -/
abbrev SameHost (s t : State) : Prop := t.pins = s.pins ∧ t.later = s.later ∧ t.fresh = s.fresh

/-- All ten registers of the engine (R20) are the same in both states. -/
abbrev SameEngine (s t : State) : Prop :=
  t.st = s.st ∧ t.op = s.op ∧ t.key = s.key ∧ t.l = s.l ∧ t.r = s.r ∧ t.i = s.i ∧ t.err = s.err ∧
  t.blockOut = s.blockOut ∧ t.subkeyOut = s.subkeyOut ∧ t.halfOut = s.halfOut

/-- What reset leaves: IDLE, no flag, no error, no result (R37, 70_reset_and_hazards.md R230). Nothing is said of `OP`, `KEY`,
`L`, `R`, `I`, which are unspecified. -/
abbrev AfterReset (s : State) : Prop :=
  s.st = .idle ∧ busy s = false ∧ done s = false ∧ s.err = 0#2 ∧ NoResult s

/-- The state a refused round leaves: FAULT, `err = 1`, no result; the rest as it was (60_exceptions.md R204, R205). -/
abbrev invalidRoundState (s : State) : State :=
  { s with op := 0b10#2, err := 1#2, st := .fault, blockOut := none, subkeyOut := none, halfOut := none }

/-- The other direction. -/
def otherMode : Mode → Mode
  | .encipher => .decipher
  | .decipher => .encipher

/-- `tot(r) = SHIFT[0] + ... + SHIFT[r-1]` (42_key_schedule.md R154). -/
def totalShift (r : Nat) : Nat := (tableSHIFT.take r).sum

/-- The six index tables (20_memory.md R51). -/
def indexTables : List Table := [tableIP, tableFP, tablePC1, tablePC2, tableE, tableP]

/-- Every element complemented. -/
def complement (s : BitSeq) : BitSeq := s.map Bool.not

/-- A run of `n` steps that does not stop. -/
abbrev RunsTo (n : Nat) (s t : State) : Prop := Host.Core.run Sys2Proof.core n s = .next t

end Sys2Proof.Machine
end

