-- ==== Sys2Proof/Certificates/Slice0/Obligations.lean ====
section
/-! DEFINITION. The statements for the provers, from the numbered rules of spec/, family by family: the bit vector layer, the
tables, the key schedule, the round function, `process`, encoding, the four commands, the steps, the whole machine. No
statement rests on a free value of `Config`, on the zeros of `State.reset` (log 3) or on the field `fresh` (log 4). -/

open Sys2Proof Sys2Proof.Machine

/-! ## 40_bitvector.md -/

/-- R110, R111: `intToBits` gives exactly the `width` bits, MSB first, for every width; a value that does not fit is refused;
the 4-bit conversion is the last four elements of the 8-bit one. -/
def Obligations.IntToBitsGivesTheBitsOrRefuses : Prop :=
  (∀ v w : Nat, v < 2 ^ w → ∃ s, intToBits v w = .ok s ∧ s.length = w ∧
    ∀ k, k < w → s[k]? = some (v.testBit (w - 1 - k))) ∧
  (∀ v w : Nat, ¬ v < 2 ^ w → intToBits v w = .error .outsideDomain) ∧
  (∀ v : Nat, v < 16 → ∃ s t, intToBits v 4 = .ok s ∧ intToBits v 8 = .ok t ∧ s = slice t 4 8)

/-- R114: the conversion round trips, in both directions. -/
def Obligations.BitConversionRoundTrips : Prop :=
  (∀ v w : Nat, v < 2 ^ w → ∃ s, intToBits v w = .ok s ∧ bitsToInt s = v) ∧
  (∀ s : BitSeq, intToBits (bitsToInt s) s.length = .ok s)

/-- R115, R116: `xor` and `and` work element by element on equal lengths and raise LengthMismatch on others, with the corner
cases the rules list. -/
def Obligations.XorAndAreElementwiseOrLengthMismatch : Prop :=
  ∀ a b : BitSeq,
    (a.length ≠ b.length → xorSeq a b = .error .lengthMismatch ∧ andSeq a b = .error .lengthMismatch) ∧
    (a.length = b.length → ∃ x y, xorSeq a b = .ok x ∧ andSeq a b = .ok y ∧
      x.length = a.length ∧ y.length = a.length ∧
      (∀ k, k < a.length →
        x.getD k false = Bool.xor (a.getD k false) (b.getD k false) ∧
        y.getD k false = Bool.and (a.getD k false) (b.getD k false)) ∧
      xorSeq b a = .ok x ∧ xorSeq x b = .ok a) ∧
    xorSeq a a = .ok (List.replicate a.length false) ∧
    xorSeq a (List.replicate a.length false) = .ok a ∧
    andSeq a a = .ok a ∧
    andSeq a (List.replicate a.length false) = .ok (List.replicate a.length false) ∧
    andSeq a (List.replicate a.length true) = .ok a

/-- R117: rotation and shift, as sequences and as integers; an amount above the length is refused. -/
def Obligations.RotateLeftRotatesOrShifts : Prop :=
  ∀ (s : BitSeq) (amount : Nat),
    (amount ≤ s.length → ∃ x y, rotateLeft s amount true = .ok x ∧ rotateLeft s amount false = .ok y ∧
      x.length = s.length ∧ y.length = s.length ∧
      (∀ k, k < s.length - amount → x[k]? = s[k + amount]? ∧ y[k]? = s[k + amount]?) ∧
      (∀ k, s.length - amount ≤ k → k < s.length → x[k]? = s[k + amount - s.length]? ∧ y[k]? = some false) ∧
      bitsToInt y = (bitsToInt s * 2 ^ amount) % 2 ^ s.length ∧
      bitsToInt x = (bitsToInt s * 2 ^ amount) % 2 ^ s.length + bitsToInt s / 2 ^ (s.length - amount)) ∧
    (s.length < amount → ∀ wrap, rotateLeft s amount wrap = .error .outsideDomain)

/-- R121: rotations compose; a full turn is the identity; the schedule's rotations are one rotation by their sum modulo 28. -/
def Obligations.RotationsCompose : Prop :=
  (∀ (s : BitSeq) (a b : Nat), a + b ≤ s.length →
    ∃ x, rotateLeft s a true = .ok x ∧ rotateLeft x b true = rotateLeft s (a + b) true) ∧
  (∀ s : BitSeq, rotateLeft s s.length true = .ok s) ∧
  (∀ (r : Nat) (c d : BitSeq), r ≤ 16 → c.length = 28 → d.length = 28 →
    ∃ c' d', rotateHalves r c d = .ok (c', d') ∧
      rotateLeft c (totalShift r % 28) true = .ok c' ∧ rotateLeft d (totalShift r % 28) true = .ok d')

/-- R118 in part: each index table selects by its 1-based entries, refuses another input length, and is linear over `xor`. -/
def Obligations.TablesSelectAndAreLinear : Prop :=
  ∀ T ∈ indexTables,
    (∀ s : BitSeq, s.length = T.inLen → ∃ out, permute s T = .ok out ∧ out.length = T.entries.length ∧
      ∀ (k j : Nat), T.entries[k]? = some j → 1 ≤ j ∧ (s[j - 1]?).isSome = true ∧ out[k]? = s[j - 1]?) ∧
    (∀ s : BitSeq, s.length ≠ T.inLen → permute s T = .error .lengthMismatch) ∧
    (∀ s t : BitSeq, s.length = T.inLen → t.length = T.inLen →
      ∃ x a b y, xorSeq s t = .ok x ∧ permute s T = .ok a ∧ permute t T = .ok b ∧ permute x T = .ok y ∧
        xorSeq a b = .ok y)

/-- R122: `FP` undoes `IP` and `IP` undoes `FP` on every 64-element sequence; and the same in table terms. -/
def Obligations.FinalPermutationUndoesInitial : Prop :=
  (∀ s : BitSeq, s.length = 64 →
    (∃ a, permute s tableIP = .ok a ∧ permute a tableFP = .ok s) ∧
    (∃ b, permute s tableFP = .ok b ∧ permute b tableIP = .ok s)) ∧
  (∀ k, k < 64 → ∃ i f, tabRead tableIP.entries k = .ok i ∧ tabRead tableFP.entries k = .ok f ∧
    tabRead tableIP.entries (f - 1) = .ok (k + 1) ∧ tabRead tableFP.entries (i - 1) = .ok (k + 1))

/-! ## 41_tables.md -/

/-- R146: the properties a transcription of the tables must have. -/
def Obligations.TablesHaveTheirListedProperties : Prop :=
  tableIP.entries.length = 64 ∧ tableIP.entries.sum = 2080 ∧ (∀ v < 64, v + 1 ∈ tableIP.entries) ∧
  tableFP.entries.length = 64 ∧ tableFP.entries.sum = 2080 ∧ (∀ v < 64, v + 1 ∈ tableFP.entries) ∧
  (∀ k < 64, tableFP.entries[tableIP.entries.getD k 0 - 1]? = some (k + 1)) ∧
  tablePC1.entries.length = 56 ∧ tablePC1.entries.sum = 1792 ∧ tablePC1.entries.Nodup ∧
  (∀ j ∈ tablePC1.entries, 1 ≤ j ∧ j ≤ 64 ∧ j % 8 ≠ 0) ∧
  tablePC2.entries.length = 48 ∧ tablePC2.entries.sum = 1352 ∧ tablePC2.entries.Nodup ∧
  (∀ j ∈ tablePC2.entries, 1 ≤ j ∧ j ≤ 56 ∧ j ∉ [9, 18, 22, 25, 35, 38, 43, 54]) ∧
  (∀ j ∈ tablePC2.entries.take 24, j ≤ 28) ∧ (∀ j ∈ tablePC2.entries.drop 24, 29 ≤ j) ∧
  tableSHIFT.length = 16 ∧ tableSHIFT.sum = 28 ∧ (∀ a ∈ tableSHIFT, a = 1 ∨ a = 2) ∧
  (∀ k < 16, tableSHIFT[k]? = some 1 ↔ k ∈ [0, 1, 8, 15]) ∧
  tableE.entries.length = 48 ∧ tableE.entries.sum = 792 ∧ (∀ j ∈ tableE.entries, 1 ≤ j ∧ j ≤ 32) ∧
  (∀ v < 32, tableE.entries.count (v + 1) = 1 ∨ tableE.entries.count (v + 1) = 2) ∧
  ((List.range 32).filter fun v => tableE.entries.count (v + 1) == 2).length = 16 ∧
  tableP.entries.length = 32 ∧ tableP.entries.sum = 528 ∧ (∀ v < 32, v + 1 ∈ tableP.entries) ∧
  tableSBOX.length = 8 ∧
  (∀ box ∈ tableSBOX, box.length = 4 ∧ (box.map List.sum).sum = 480 ∧
    ∀ row ∈ box, row.length = 16 ∧ row.sum = 120 ∧ ∀ v < 16, v ∈ row) ∧
  (tableSBOX.map fun box => ((List.range 64).map fun p => (p + 1) * box.flatten.getD p 0).sum) =
    [15455, 15538, 15707, 15614, 15578, 15516, 15510, 15575]

/-- R133: the key positions PC-1 never names are the multiples of 8; two keys that agree outside them give the same subkeys
and the same results. -/
def Obligations.IgnoredKeyBitsHaveNoEffect : Prop :=
  (∀ j, 1 ≤ j → j ≤ 64 → (j ∉ tablePC1.entries ↔ j ∈ [8, 16, 24, 32, 40, 48, 56, 64])) ∧
  (∀ k1 k2 : Key, k1 &&& 0xFEFEFEFEFEFEFEFE#64 = k2 &&& 0xFEFEFEFEFEFEFEFE#64 →
    (∀ r, keySchedule k1 r = keySchedule k2 r) ∧ (∀ b m, process b k1 m = process b k2 m))

/-! ## 42_key_schedule.md -/

/-- R151: InvalidRound exactly for `r = 0` and `r > 16`; for every other round a 48-element subkey (R150); never for the round
numbers of a process operation. -/
def Obligations.KeyScheduleFailsExactlyOnInvalidRounds : Prop :=
  ∀ (key : Key) (r : Nat),
    ((r = 0 ∨ r > 16) → keySchedule key r = .error .invalidRound) ∧
    (¬ (r = 0 ∨ r > 16) → ∃ k, keySchedule key r = .ok k ∧ k.length = 48) ∧
    (∀ mode, 1 ≤ r → r ≤ 16 → ∃ k, keySchedule key (effectiveRound mode r) = .ok k)

/-- R154: the sums of the shifts, the closed form of the key schedule, and of the halves after the loop. -/
def Obligations.KeyScheduleClosedForm : Prop :=
  (List.range' 1 16).map totalShift = [1, 2, 4, 6, 8, 10, 12, 14, 15, 17, 19, 21, 23, 25, 27, 28] ∧
  ∀ (key : Key) (r : Nat), 1 ≤ r → r ≤ 16 →
    ∃ p c0 d0 cr dr, permute (toSeq key) tablePC1 = .ok p ∧ c0 = slice p 0 28 ∧ d0 = slice p 28 56 ∧
      rotateHalves r c0 d0 = .ok (cr, dr) ∧
      rotateLeft c0 (totalShift r % 28) true = .ok cr ∧ rotateLeft d0 (totalShift r % 28) true = .ok dr ∧
      (∀ k, k < 28 → cr[k]? = c0[(k + totalShift r) % 28]? ∧ dr[k]? = d0[(k + totalShift r) % 28]?) ∧
      keySchedule key r = permute (cr ++ dr) tablePC2

/-- R155: after sixteen rounds the halves are back, so the last subkey is PC-2 of the PC-1 output. -/
def Obligations.RoundSixteenSubkeyNeedsNoRotation : Prop :=
  totalShift 16 = 28 ∧ ∀ key : Key, ∃ p, permute (toSeq key) tablePC1 = .ok p ∧
    rotateHalves 16 (slice p 0 28) (slice p 28 56) = .ok (slice p 0 28, slice p 28 56) ∧
    keySchedule key 16 = permute p tablePC2

/-- R156, with its (a) and (d): every subkey bit is a copy of one key bit, never of an ignored one, and the first 24 come from
C. -/
def Obligations.EverySubkeyBitIsOneKeyBit : Prop :=
  ∀ (key : Key) (r m : Nat), 1 ≤ r → r ≤ 16 → m < 48 →
    ∃ k p q j, keySchedule key r = .ok k ∧ tabRead tablePC2.entries m = .ok (p + 1) ∧
      q = (if p < 28 then (p + totalShift r) % 28 else 28 + (p - 28 + totalShift r) % 28) ∧
      tabRead tablePC1.entries q = .ok (j + 1) ∧ (toSeq key)[j]?.isSome = true ∧ k[m]? = (toSeq key)[j]? ∧
      (j + 1) % 8 ≠ 0 ∧ (m < 24 ↔ q < 28)

/-- R156 (b), (c): the key schedule is linear over `xor`, complementing the key complements every subkey, and the all-zero and
all-one keys give all-zero and all-one subkeys. -/
def Obligations.KeyScheduleIsLinear : Prop :=
  (∀ r, 1 ≤ r → r ≤ 16 → keySchedule 0#64 r = .ok (List.replicate 48 false) ∧
    keySchedule 0xFFFFFFFFFFFFFFFF#64 r = .ok (List.replicate 48 true)) ∧
  ∀ (k1 k2 : Key) (r : Nat), 1 ≤ r → r ≤ 16 →
    ∃ a b c d, keySchedule k1 r = .ok a ∧ keySchedule k2 r = .ok b ∧ keySchedule (k1 ^^^ k2) r = .ok c ∧
      xorSeq a b = .ok c ∧ keySchedule (~~~k1) r = .ok d ∧ d = complement a

/-- R157: the incremental forms. Forward, round `r` follows from the halves of round `r - 1` by one rotation; backward, the
halves of round `r` follow from those of round `r + 1` by rotating right by `SHIFT[r]`, which on 28 elements is rotating left
by `28 - SHIFT[r]`; and the backward form starts from C0, D0, which are C16, D16. -/
def Obligations.IncrementalKeyScheduleAgrees : Prop :=
  ∀ key : Key, ∃ c0 d0, keyHalves key = .ok (c0, d0) ∧ rotateHalves 16 c0 d0 = .ok (c0, d0) ∧
    (∀ r, 1 ≤ r → r ≤ 16 → ∃ c d c' d' a, rotateHalves (r - 1) c0 d0 = .ok (c, d) ∧
      tabRead tableSHIFT (r - 1) = .ok a ∧ rotateLeft c a true = .ok c' ∧ rotateLeft d a true = .ok d' ∧
      keySchedule key r = permute (c' ++ d') tablePC2) ∧
    (∀ r, 1 ≤ r → r < 16 → ∃ c d c' d' a, rotateHalves (r + 1) c0 d0 = .ok (c, d) ∧
      tabRead tableSHIFT r = .ok a ∧ rotateLeft c (28 - a) true = .ok c' ∧ rotateLeft d (28 - a) true = .ok d' ∧
      keySchedule key r = permute (c' ++ d') tablePC2)

/-! ## 43_feistel.md -/

/-- R165: LengthMismatch exactly when an input has the wrong width; otherwise the 32-element result of the four steps in order
(R167, R169, R170); never for the operands of the ports. -/
def Obligations.FeistelRoundFailsExactlyOnWrongWidths : Prop :=
  ∀ right subkey : BitSeq,
    ((right.length ≠ 32 ∨ subkey.length ≠ 48) → feistelRound right subkey = .error .lengthMismatch) ∧
    ((right.length = 32 ∧ subkey.length = 48) → ∃ e x s f, permute right tableE = .ok e ∧ xorSeq e subkey = .ok x ∧
      substitute x = .ok s ∧ permute s tableP = .ok f ∧ feistelRound right subkey = .ok f ∧ f.length = 32) ∧
    (∀ (half : Half) (key : Subkey), ∃ f, feistelRound (toSeq half) (toSeq key) = .ok f)

/-- R166: the expansion, by the table and group by group. -/
def Obligations.ExpansionGroups : Prop :=
  ∀ s : BitSeq, s.length = 32 → ∃ e, permute s tableE = .ok e ∧ e.length = 48 ∧
    (∀ k j : Nat, tableE.entries[k]? = some j → e[k]? = s[j - 1]?) ∧
    (∀ g t : Nat, g < 8 → t < 6 → e[6 * g + t]? = s[(4 * g + t + 31) % 32]?)

/-- R52: every S-box address is defined, and is the flat address `row = 2*a[5] + a[0]`, `col = a[4:1]` of the 6-bit integer. -/
def Obligations.EverySboxAddressIsDefined : Prop :=
  ∀ (b : Nat) (grp : BitSeq), b < 8 → grp.length = 6 →
    sboxRow grp = 2 * (grp.getD 0 false).toNat + (grp.getD 5 false).toNat ∧ sboxRow grp < 4 ∧
    sboxCol grp = bitsToInt (slice grp 1 5) ∧ sboxCol grp < 16 ∧
    sboxRow grp = 2 * (bitsToInt grp / 32) + bitsToInt grp % 2 ∧ sboxCol grp = bitsToInt grp / 2 % 16 ∧
    ∃ v, sboxRead b (sboxRow grp) (sboxCol grp) = .ok v ∧ v < 16 ∧
      tableSBOX[b]?.bind (fun box => box[sboxRow grp]?.bind fun row => row[sboxCol grp]?) = some v

/-- R168: group `g` addresses box `g`, and its four output bits stand at `4g` to `4g + 3`. -/
def Obligations.SubstitutionIsEightLookups : Prop :=
  ∀ x : BitSeq, x.length = 48 → ∃ s, substitute x = .ok s ∧ s.length = 32 ∧
    ∀ g, g < 8 → ∃ v, v < 16 ∧
      sboxRead g (2 * (x.getD (6 * g) false).toNat + (x.getD (6 * g + 5) false).toNat)
        (bitsToInt (slice x (6 * g + 1) (6 * g + 5))) = .ok v ∧
      intToBits v 4 = .ok (slice s (4 * g) (4 * g + 4))

/-- R171 (a), (b): the result depends on the operands only through `xor(E(R), K)`; complementing both changes nothing. -/
def Obligations.FeistelRoundDependsOnTheMixedSequence : Prop :=
  (∀ r1 k1 r2 k2 e1 e2 : BitSeq, r1.length = 32 → k1.length = 48 → r2.length = 32 → k2.length = 48 →
    permute r1 tableE = .ok e1 → permute r2 tableE = .ok e2 → xorSeq e1 k1 = xorSeq e2 k2 →
    feistelRound r1 k1 = feistelRound r2 k2) ∧
  (∀ r k : BitSeq, r.length = 32 → k.length = 48 →
    feistelRound (complement r) (complement k) = feistelRound r k)

/-! ## 44_engine.md: the function -/

/-- R192: `process` is total. -/
def Obligations.ProcessIsTotal : Prop :=
  ∀ (block : Block) (key : Key) (mode : Mode), ∃ v, process block key mode = .ok v

/-- R191: the round trip in both orders, and that `process` is a bijection for each key and mode. -/
def Obligations.ProcessRoundTrips : Prop :=
  ∀ (key : Key) (mode : Mode),
    (∀ block, ∃ c, process block key mode = .ok c ∧ process c key (otherMode mode) = .ok block) ∧
    (∀ b1 b2 v, process b1 key mode = .ok v → process b2 key mode = .ok v → b1 = b2) ∧
    (∀ c, ∃ block, process block key mode = .ok c)

/-- R194 (b): complementation. -/
def Obligations.ProcessComplementation : Prop :=
  ∀ (block : Block) (key : Key) (mode : Mode) (v : Block),
    process block key mode = .ok v → process (~~~block) (~~~key) mode = .ok (~~~v)

/-- R194 (c): when all sixteen subkeys are equal the two directions coincide and enciphering twice gives the block back. -/
def Obligations.EqualSubkeysMakeTheModesCoincide : Prop :=
  ∀ key : Key, (∀ r, 1 ≤ r → r ≤ 16 → keySchedule key r = keySchedule key 1) →
    ∀ block, process block key .encipher = process block key .decipher ∧
      ∃ v, process block key .encipher = .ok v ∧ process v key .encipher = .ok block

/-! ## 30_encoding.md -/

/-- R84, R82, R92: presenting a command and decoding the ports gives the command back, whatever the other ports carry; and the
ports of a decoded command are its encoding. -/
def Obligations.DecodeAndEncodeAgree : Prop :=
  (∀ (i : Instr) (c : CommandPorts), decode (encodeOnto i c) = i) ∧
  (∀ c : CommandPorts, encodeOnto (decode c) c = c) ∧
  (∀ (i : Instr) (c : CommandPorts), decode c = i → c.op = (encode i).op)

/-- R82: the four opcode words. Two things here are the model's, not the spec's: the zeros on the operand ports, which an
opcode-table word does not give (log 1), and that a word with a bit above `op[1]` decodes to nothing (DEDUCED, log 10). -/
def Obligations.OpcodeWordsDecode : Prop :=
  decodeTableWord 8 0b00 = some (.encipher 0#64 0#64) ∧ decodeTableWord 8 0b01 = some (.decipher 0#64 0#64) ∧
  decodeTableWord 8 0b10 = some (.keysched 0#64 0#8) ∧ decodeTableWord 8 0b11 = some (.fround 0#32 0#48) ∧
  decodeTableWord 8 0b100 = none

/-- R92: the operand ports a command does not read have no effect on the step. -/
def Obligations.UnreadPortsHaveNoEffect : Prop :=
  ∀ (i : Instr) (c1 c2 : CommandPorts) (s : State), ∀ t1,
    react { s with pins := { rst := false, start := true, cmd := encodeOnto i c1 } } = .next t1 →
    ∃ t2, react { s with pins := { rst := false, start := true, cmd := encodeOnto i c2 } } = .next t2 ∧
      SameEngine t1 t2 ∧ t2.later = t1.later ∧ t2.fresh = t1.fresh

/-- R88: the effective round number of a loop counter in 1..16. -/
def Obligations.EffectiveRoundStaysInRange : Prop :=
  ∀ i, 1 ≤ i → i ≤ 16 → effectiveRound .encipher i = i ∧ effectiveRound .decipher i + i = 17 ∧
    ∀ m, 1 ≤ effectiveRound m i ∧ effectiveRound m i ≤ 16

/-! ## The commands -/

/-- The accept step of ENCIPHER and of DECIPHER (R186), which completes in every ready state on all operands. It writes
exactly what the rule lists; in the record every other field (`fresh` and what the host drives) is as before. -/
def Obligations.ProcessCommandsAreAccepted : Prop :=
  ∀ (s : State) (block : Block) (key : Key), Ready s →
    ∃ permuted l r, permute (toSeq block) tableIP = .ok permuted ∧
      toSeq l = slice permuted 0 32 ∧ toSeq r = slice permuted 32 64 ∧
      exec (.encipher block key) s = .next { s with
        op := 0b00#2, key := key, l := l, r := r, i := 1#5, st := .busy, err := 0#2
        blockOut := none, subkeyOut := none, halfOut := none } ∧
      exec (.decipher block key) s = .next { s with
        op := 0b01#2, key := key, l := l, r := r, i := 1#5, st := .busy, err := 0#2
        blockOut := none, subkeyOut := none, halfOut := none }

/-- KEYSCHED (R158): with a valid round it completes with the subkey; with any other it reports InvalidRound; in both cases
`L`, `R`, `I`, `KEY` and all else are as before, `busy = 0` and `done = 1`. -/
def Obligations.KeyschedGivesTheSubkeyOrInvalidRound : Prop :=
  ∀ (s : State) (key : Key) (round : BitVec 8), Ready s →
    (1 ≤ round.toNat → round.toNat ≤ 16 → ∃ k v, keySchedule key round.toNat = .ok k ∧ toSeq v = k ∧
      exec (.keysched key round) s = .next { s with
        op := 0b10#2, err := 0#2, st := .done, blockOut := none, subkeyOut := some v, halfOut := none }) ∧
    ((round.toNat = 0 ∨ 16 < round.toNat) → exec (.keysched key round) s = .next (invalidRoundState s)) ∧
    (∀ t, exec (.keysched key round) s = .next t → busy t = false ∧ done t = true)

/-- FROUND (R172) completes in every ready state on all operands; `L`, `R`, `I`, `KEY` and all else are as before. -/
def Obligations.FroundGivesTheRoundFunction : Prop :=
  ∀ (s : State) (half : Half) (subkey : Subkey), Ready s →
    ∃ f v, feistelRound (toSeq half) (toSeq subkey) = .ok f ∧ toSeq v = f ∧
      exec (.fround half subkey) s = .next { s with
        op := 0b11#2, err := 0#2, st := .done, blockOut := none, subkeyOut := none, halfOut := some v } ∧
      ∀ t, exec (.fround half subkey) s = .next t → busy t = false ∧ done t = true

/-- R209: from every ready state, FAULT among them, a command does exactly what it does from a cleared IDLE. -/
def Obligations.AcceptDoesNotDependOnAnEarlierError : Prop :=
  ∀ (i : Instr) (s : State), Ready s →
    exec i s = exec i { s with
      st := .idle, err := 0#2, op := 0b00#2, blockOut := none, subkeyOut := none, halfOut := none }

/-- R206: an accepted command either is in progress or has ended, and then with its complete result and no error, or with an
error and no result. -/
def Obligations.ErrorsArePreciseAndLeaveNoResult : Prop :=
  ∀ (i : Instr) (s : State), Ready s → ∃ t, exec i s = .next t ∧
    ((t.st = .busy ∧ t.err = 0#2 ∧ NoResult t) ∨
     (t.st = .done ∧ t.err = 0#2 ∧ OnlyResultOfOp t ∧ ∃ v, readResult (resultPort i) t = .next v) ∨
     (t.st = .fault ∧ t.err = 1#2 ∧ NoResult t))

/-! ## The steps -/

/-- R187: the round step, for the loop counter in 1..16. -/
def Obligations.RoundStepIsOneIteration : Prop :=
  ∀ s : State, s.pins.rst = false → s.st = .busy → 1 ≤ s.i.toNat → s.i.toNat ≤ 16 →
    ∃ rnd k f x r, rnd = (if s.op.getLsbD 0 = false then s.i.toNat else 17 - s.i.toNat) ∧
      keySchedule s.key rnd = .ok k ∧ feistelRound (toSeq s.r) k = .ok f ∧ xorSeq f (toSeq s.l) = .ok x ∧
      toSeq r = x ∧ (s.i + 1#5).toNat = s.i.toNat + 1 ∧
      react s = .next { s with l := s.r, r := r, i := s.i + 1#5 }

/-- R188: the final step. -/
def Obligations.FinalStepWritesTheResult : Prop :=
  ∀ s : State, s.pins.rst = false → s.st = .busy → s.i.toNat = 17 →
    ∃ out v, permute (toSeq s.r ++ toSeq s.l) tableFP = .ok out ∧ v.toNat = bitsToInt out ∧
      react s = .next { s with blockOut := some v, st := .done }

/-- R189: the step relation, row by row: from every state of the invariant exactly the step of its row is taken. -/
def Obligations.StepRelation : Prop :=
  ∀ s : State, StateInv s → ∃ t, react s = .next t ∧
    (s.pins.rst = true → t = resetStep s ∧ t.st = .idle) ∧
    (s.pins.rst = false → Ready s → s.pins.start = false → t = s) ∧
    (s.pins.rst = false → Ready s → s.pins.start = true → exec (decode s.pins.cmd) s = .next t ∧
      ((s.pins.cmd.op = 0b00#2 ∨ s.pins.cmd.op = 0b01#2) → t.st = .busy) ∧
      (s.pins.cmd.op = 0b10#2 → 1 ≤ s.pins.cmd.roundIn.toNat → s.pins.cmd.roundIn.toNat ≤ 16 → t.st = .done) ∧
      (s.pins.cmd.op = 0b10#2 → (s.pins.cmd.roundIn.toNat = 0 ∨ 17 ≤ s.pins.cmd.roundIn.toNat) → t.st = .fault) ∧
      (s.pins.cmd.op = 0b11#2 → t.st = .done)) ∧
    (s.pins.rst = false → s.st = .busy → s.i.toNat ≤ 16 → roundStep s = .next t ∧ t.st = .busy) ∧
    (s.pins.rst = false → s.st = .busy → s.i.toNat = 17 → finalStep s = .next t ∧ t.st = .done)

/-- A step runs the decoded command: with `rst = 0` and `start = 1` it is `exec` of the command on the ports, and around it only
the host's levels move on. -/
def Obligations.StepRunsTheDecodedCommand : Prop :=
  ∀ (s : State) (i : Instr) (c : CommandPorts), s.pins = { rst := false, start := true, cmd := encodeOnto i c } →
    decode s.pins.cmd = i ∧ react s = exec i s ∧
    (∀ t, exec i s = .next t → step s = .next (nextPins t)) ∧
    (∀ e, exec i s = .fault e → step s = .fault e) ∧
    (∀ e, exec i s = .refused e → step s = .refused e) ∧
    (∀ t : State, SameEngine t (nextPins t) ∧ (t.later = [] → nextPins t = t) ∧
      ∀ p rest, t.later = p :: rest → (nextPins t).pins = p ∧ (nextPins t).later = rest)

/-- R241: a command presented while BUSY changes nothing in what the engine does, and is not remembered: the step is the one it
takes with quiet ports. That `exec` of the command, which by R212 (d) has no step of its own, answers the step of the operation
in progress is the model's reading (DEDUCED, log 5). -/
def Obligations.CommandWhileBusyIsIgnored : Prop :=
  ∀ (s : State) (p : Inputs), s.st = .busy → p.rst = false →
    (∀ i, exec i s = advance s) ∧
    (∀ t, react { s with pins := .quiet } = .next t →
      ∃ u, react { s with pins := p } = .next u ∧ u = { t with pins := p })

/-- R230: a reset step is taken whenever `rst = 1`, whatever else holds, and while `rst` stays 1 the engine stays so. -/
def Obligations.ResetFromAnyState : Prop :=
  ∀ (s : State) (n : Nat), s.pins.rst = true → (∀ p ∈ s.later.take n, p.rst = true) →
    ∃ t, RunsTo (n + 1) s t ∧ AfterReset t

/-- R37: the state after reset. -/
def Obligations.ResetStateIsAsSpecified : Prop :=
  AfterReset State.reset ∧ outputs State.reset =
    { busy := false, done := false, err := 0#2, blockOut := none, subkeyOut := none, halfOut := none }

/-- R38 holds at reset. -/
def Obligations.InvariantHoldsAtReset : Prop := StateInv State.reset

/-- R38: every step from a state of the invariant keeps it. -/
def Obligations.EveryStepKeepsTheInvariant : Prop :=
  ∀ s t : State, StateInv s → step s = .next t → StateInv t

/-- No step from a state of the invariant stops, and none reports LengthMismatch (R203, R200); the function level of a command
gives neither that nor `outsideDomain`, a value of the model's function layer (log 9). -/
def Obligations.NoStepStopsOrReportsLengthMismatch : Prop :=
  (∀ s : State, StateInv s → ∃ t, step s = .next t ∧ t.err ≠ 2#2 ∧ t.err ≠ 3#2) ∧
  (∀ i : Instr, (functionLevel i).aborts ≠ some .lengthMismatch ∧ (functionLevel i).aborts ≠ some .outsideDomain)

/-- A state in BUSY beyond the loop, which no run reaches (R38), is the one where the machine stops by name (log 7). -/
def Obligations.BusyBeyondTheLoopStops : Prop :=
  ∀ s : State, s.pins.rst = false → s.st = .busy → 17 < s.i.toNat → step s = .fault .noStepEnabled

/-! ## Whole-machine rules -/

/-- R29: `busy` and `done` are never both 1, an error is only shown with `done`, and code 2 and 3 are never shown. -/
def Obligations.StatusFlagsAreConsistent : Prop :=
  ∀ s : State, StateInv s → ¬ (busy s = true ∧ done s = true) ∧ (s.err ≠ 0#2 → done s = true) ∧ s.err ≠ 2#2 ∧ s.err ≠ 3#2

/-- R31: each result register is written by one kind of step, every accept invalidates all three, a reset step too, and
otherwise a result stays. -/
def Obligations.ResultRegistersHaveOneWriter : Prop :=
  ∀ s t : State, react s = .next t →
    (∀ v, t.blockOut = some v → s.blockOut = some v ∨ (s.pins.rst = false ∧ s.st = .busy ∧ s.i.toNat = 17)) ∧
    (∀ v, t.subkeyOut = some v → s.subkeyOut = some v ∨ (s.pins.rst = false ∧ Ready s ∧ s.pins.start = true ∧
      s.pins.cmd.op = 0b10#2 ∧ 1 ≤ s.pins.cmd.roundIn.toNat ∧ s.pins.cmd.roundIn.toNat ≤ 16)) ∧
    (∀ v, t.halfOut = some v → s.halfOut = some v ∨ (s.pins.rst = false ∧ Ready s ∧ s.pins.start = true ∧
      s.pins.cmd.op = 0b11#2)) ∧
    (s.pins.rst = false → Ready s → s.pins.start = true →
      t.blockOut = none ∧
      (¬ (s.pins.cmd.op = 0b10#2 ∧ 1 ≤ s.pins.cmd.roundIn.toNat ∧ s.pins.cmd.roundIn.toNat ≤ 16) → t.subkeyOut = none) ∧
      (s.pins.cmd.op ≠ 0b11#2 → t.halfOut = none)) ∧
    (s.pins.rst = false → Ready s → s.pins.start = false →
      t.blockOut = s.blockOut ∧ t.subkeyOut = s.subkeyOut ∧ t.halfOut = s.halfOut) ∧
    (s.pins.rst = false → s.st = .busy → 1 ≤ s.i.toNat → t.subkeyOut = s.subkeyOut ∧ t.halfOut = s.halfOut ∧
      (s.i.toNat ≤ 16 → t.blockOut = s.blockOut)) ∧
    (s.pins.rst = true → NoResult t)

/-- R24 and R25: without a reset, `KEY` is written only by the accept of a process command, from `key_in`, and `OP` only by an
accept, from `op`. -/
def Obligations.KeyAndOpAreWrittenOnlyAtAccept : Prop :=
  ∀ s t : State, react s = .next t → s.pins.rst = false →
    (t.key = s.key ∨ (Ready s ∧ s.pins.start = true ∧ s.pins.cmd.op.getLsbD 1 = false ∧ t.key = s.pins.cmd.keyIn)) ∧
    (t.op = s.op ∨ (Ready s ∧ s.pins.start = true ∧ t.op = s.pins.cmd.op))

/-- R243: a result register can be read exactly while `done = 1`, `err = 0`, and it is the one of the command that ended; any
other read is a fault of the host. -/
def Obligations.ResultsAreReadableExactlyWhenValid : Prop :=
  ∀ (s : State) (port : ResultPort), StateInv s →
    ((∃ v, readResult port s = .next v) ↔
      (done s = true ∧ s.err = 0#2 ∧ resultPort (decode { CommandPorts.zero with op := s.op }) = port)) ∧
    (¬ (∃ v, readResult port s = .next v) → readResult port s = .fault (.readNoValue port))

/-- R190, with the flags of R182: the eighteen steps of a process command, without a reset, end with the value of `process`;
before that the engine is busy and shows no result. -/
def Obligations.EighteenStepsRefineProcess : Prop :=
  ∀ (s : State) (block : Block) (key : Key) (mode : Mode), Ready s → NoResetFor 17 s → s.pins.start = true →
    decode s.pins.cmd = processInstr block key mode →
    (∀ n, 1 ≤ n → n ≤ 17 → ∃ u, RunsTo n s u ∧ busy u = true ∧ done u = false ∧ u.err = 0#2 ∧ NoResult u) ∧
    ∃ t v, RunsTo 18 s t ∧ process block key mode = .ok v ∧ t.st = .done ∧ t.err = 0#2 ∧
      t.blockOut = some v ∧ t.subkeyOut = none ∧ t.halfOut = none

/-- The proof sketch of R190: after `n` round steps `L` and `R` are the loop's `left` and `right` after `n` iterations, and
`I = n + 1`. -/
def Obligations.RoundStepsFollowTheLoop : Prop :=
  ∀ (s : State) (block : Block) (key : Key) (mode : Mode) (n : Nat), Ready s → NoResetFor 17 s → s.pins.start = true →
    decode s.pins.cmd = processInstr block key mode → n ≤ 16 →
    ∃ u l0 r0, RunsTo (n + 1) s u ∧ initialHalves block = .ok (l0, r0) ∧
      rounds key mode n l0 r0 = .ok (toSeq u.l, toSeq u.r) ∧
      u.st = .busy ∧ u.i.toNat = n + 1 ∧ u.key = key ∧ modeOf u.op = mode

/-- R19, with the end of R249: every operation, issued as the host issues it (log 13) to a ready engine or to a reachable busy
one, ends with `done = 1` and with exactly the outcome of the function level. -/
def Obligations.EveryOperationEndsWithTheFunctionLevelOutcome : Prop :=
  ∀ (i : Instr) (s : State), Ready s ∨ StateInv s →
    ∃ t, issue i s = .next t ∧ done t = true ∧ outcomeOf (functionLevel i) = some (outcome t)

/-- R193: the outcome of an operation depends only on the command and its operands, not on the state it starts from. Said of
`issue`, the operation as the host issues it after R95; that the host first waits when the engine is busy, where R241 accepts
nothing, is the model's reading of R95 (DEDUCED, log 13). -/
def Obligations.OutcomeDependsOnlyOnTheCommand : Prop :=
  ∀ (i : Instr) (s1 s2 : State), Ready s1 ∨ StateInv s1 → Ready s2 ∨ StateInv s2 →
    ∃ t1 t2, issue i s1 = .next t1 ∧ issue i s2 = .next t2 ∧ outcome t1 = outcome t2

/-- R240: once accepted, an operation is not affected by what the host drives, short of a reset. -/
def Obligations.OperationInProgressIgnoresTheOperandPorts : Prop :=
  ∀ (s : State) (p1 p2 : Inputs) (q1 q2 : List Inputs) (n : Nat), StateInv s → s.st = .busy →
    NoResetFor 16 (drive p1 q1 s) → NoResetFor 16 (drive p2 q2 s) → n + s.i.toNat ≤ 18 →
    ∃ t1 t2, RunsTo n (drive p1 q1 s) t1 ∧ RunsTo n (drive p2 q2 s) t2 ∧ SameEngine t1 t2

/-- R242: with `start` held and the ports unchanged (no later levels: the levels stay, log 2), the command is accepted again in the step after the operation ends; the
result has no value meanwhile and then is the same. -/
def Obligations.HeldStartRepeatsTheOperation : Prop :=
  ∀ (s : State) (block : Block) (key : Key) (mode : Mode), Ready s → s.pins.rst = false → s.later = [] →
    s.pins.start = true → decode s.pins.cmd = processInstr block key mode →
    ∃ t u w v, process block key mode = .ok v ∧ RunsTo 18 s t ∧ t.st = .done ∧ t.blockOut = some v ∧
      RunsTo 19 s u ∧ u = { s with
        st := .busy, op := s.pins.cmd.op, key := key, l := u.l, r := u.r, i := 1#5, err := 0#2
        blockOut := none, subkeyOut := none, halfOut := none } ∧
      (∀ n, 19 ≤ n → n ≤ 35 → ∃ x, RunsTo n s x ∧ busy x = true ∧ NoResult x) ∧
      RunsTo 36 s w ∧ w.st = .done ∧ w.blockOut = some v

/-- R246: a busy engine that is not reset is done after at most seventeen steps. -/
def Obligations.BusyEngineFinishes : Prop :=
  ∀ s : State, StateInv s → s.st = .busy → NoResetFor 16 s →
    ∃ n t, n + s.i.toNat = 18 ∧ RunsTo n s t ∧ done t = true ∧ t.err = 0#2
end

