-- ==== Sys2Proof/Laws/BitVector.lean ====
section
/-! SUPPORT. One lemma per function of the bit vector layer: when it gives a value, which, and of what length. -/

namespace Sys2Proof.Machine

@[simp] theorem bitsOf_length (v w : Nat) : (bitsOf v w).length = w := by simp [bitsOf]

theorem bitsOf_getElem (v w k : Nat) (h : k < w) :
    (bitsOf v w)[k]'(by simpa using h) = v.testBit (w - 1 - k) := by
  simp [bitsOf]

theorem intToBits_ok (v w : Nat) (h : v < 2 ^ w) : intToBits v w = .ok (bitsOf v w) := by
  simp [intToBits, h]

/-- Conversion of a port's value never fails (R111). -/
theorem intToBits_toNat {w : Nat} (v : BitVec w) : intToBits v.toNat w = .ok (toSeq v) :=
  intToBits_ok _ _ v.isLt

@[simp] theorem toSeq_length {w : Nat} (v : BitVec w) : (toSeq v).length = w := by simp [toSeq]

/-- The accumulator form of `bitsToInt`. -/
theorem bitsToInt_foldl (s : BitSeq) (a : Nat) :
    s.foldl (fun v b => 2 * v + b.toNat) a = a * 2 ^ s.length + bitsToInt s := by
  induction s generalizing a with
  | nil => simp [bitsToInt]
  | cons b s ih =>
    simp only [List.foldl_cons, List.length_cons, bitsToInt]
    rw [ih, ih (2 * 0 + b.toNat), Nat.pow_succ]
    ring

@[simp] theorem bitsToInt_nil : bitsToInt [] = 0 := rfl

theorem bitsToInt_cons (b : Bool) (s : BitSeq) : bitsToInt (b :: s) = b.toNat * 2 ^ s.length + bitsToInt s := by
  simpa [bitsToInt] using bitsToInt_foldl s b.toNat

theorem bitsToInt_append (s t : BitSeq) : bitsToInt (s ++ t) = bitsToInt s * 2 ^ t.length + bitsToInt t := by
  rw [bitsToInt, List.foldl_append]
  exact bitsToInt_foldl t (bitsToInt s)

/-- "the result of a length-`n` sequence needs `n` bits and never overflows them" (R113). -/
theorem bitsToInt_lt (s : BitSeq) : bitsToInt s < 2 ^ s.length := by
  induction s with
  | nil => simp
  | cons b s ih =>
    rw [bitsToInt_cons, List.length_cons, Nat.pow_succ]
    have : b.toNat ≤ 1 := Bool.toNat_le b
    nlinarith

theorem xorSeq_ok (a b : BitSeq) (h : a.length = b.length) : xorSeq a b = .ok (List.zipWith Bool.xor a b) := by
  simp [xorSeq, h]

theorem permute_ok (s : BitSeq) (T : Table) (h : s.length = T.inLen) :
    permute s T = .ok (T.entries.map fun j => s.getD (j - 1) false) := by
  simp [permute, h]

/-- What `permute` gives when it gives a value. -/
theorem permute_eq_ok {s out : BitSeq} {T : Table} :
    permute s T = .ok out ↔ s.length = T.inLen ∧ out = T.entries.map fun j => s.getD (j - 1) false := by
  unfold permute
  split <;> simp_all [eq_comm]

theorem split_ok (s : BitSeq) (n : Nat) (h : s.length = 2 * n) :
    split s n = .ok (slice s 0 n, slice s n (2 * n)) := by
  simp [split, h]

@[simp] theorem slice_length (s : BitSeq) (a b : Nat) : (slice s a b).length = min (b - a) (s.length - a) := by
  simp [slice]

/-- Joining what `split` gives restores the sequence (R119). -/
theorem slice_append_slice (s : BitSeq) (n : Nat) (h : s.length = 2 * n) :
    slice s 0 n ++ slice s n (2 * n) = s := by
  have h2 : (s.drop n).take (2 * n - n) = s.drop n := List.take_of_length_le (by simp [h])
  simp [slice, h2]

theorem rotateLeft_ok (s : BitSeq) (n : Nat) (wrap : Bool) (h : n ≤ s.length) :
    ∃ out, rotateLeft s n wrap = .ok out ∧ out.length = s.length := by
  refine ⟨s.drop n ++ (if wrap then s.take n else List.replicate n false), by simp [rotateLeft, h], ?_⟩
  cases wrap <;> simp <;> omega

theorem tabRead_ok (t : List Nat) (k : Nat) (h : k < t.length) : tabRead t k = .ok t[k] := by
  simp [tabRead, h]

theorem cut_ok (s : BitSeq) (n c : Nat) (h : s.length = n * c) :
    cut s n c = .ok ((List.range c).map fun g => slice s (n * g) (n * g + n)) := by
  simp [cut, h]

theorem pack_ok (w : Nat) (s : BitSeq) (h : s.length = w) : pack w s = .ok (BitVec.ofNat w (bitsToInt s)) := by
  simp [pack, h]

/-- No index table names an element outside the sequence it is applied to (R57, R51): the default of `permute` is never
taken. -/
theorem indexTables_in_range : ∀ T ∈ indexTables, ∀ j ∈ T.entries, 1 ≤ j ∧ j ≤ T.inLen := by decide +kernel

/-- Entry by entry `permute` is what `TabRead` says (R118). -/
theorem permute_getElem? (s out : BitSeq) (T : Table) (h : permute s T = .ok out) (k : Nat) :
    out[k]? = (T.entries[k]?).map fun j => s.getD (j - 1) false := by
  obtain ⟨-, rfl⟩ := permute_eq_ok.1 h
  simp

end Sys2Proof.Machine
end

