-- ==== Sys2Proof/Laws/Functions.lean ====
section
/-! SUPPORT. The functions of the source give values of the right length on the operands the engine passes them: one lemma
per function, for the callers. -/

namespace Sys2Proof.Machine

/-- Steps 1 to 3 of R152. -/
theorem keyHalves_eq (key : Key) :
    ∃ p, permute (toSeq key) tablePC1 = .ok p ∧ p.length = 56 ∧
      keyHalves key = .ok (slice p 0 28, slice p 28 56) := by
  have hp := permute_ok (toSeq key) tablePC1 (by simp [tablePC1])
  refine ⟨_, hp, by simp [tablePC1], ?_⟩
  rw [keyHalves, intToBits_toNat]
  simp only [bind, Except.bind, hp]
  exact split_ok _ 28 (by simp [tablePC1])

theorem keyHalves_ok (key : Key) :
    ∃ c d, keyHalves key = .ok (c, d) ∧ c.length = 28 ∧ d.length = 28 := by
  obtain ⟨p, -, hl, h⟩ := keyHalves_eq key
  exact ⟨_, _, h, by simp [hl], by simp [hl]⟩

theorem shift_in_range : ∀ a ∈ tableSHIFT, a ≤ 28 := by decide

theorem rotateHalves_ok (n : Nat) (c d : BitSeq) (hn : n ≤ 16) (hc : c.length = 28) (hd : d.length = 28) :
    ∃ c' d', rotateHalves n c d = .ok (c', d') ∧ c'.length = 28 ∧ d'.length = 28 := by
  induction n with
  | zero => exact ⟨c, d, rfl, hc, hd⟩
  | succ n ih =>
    obtain ⟨c1, d1, h1, hc1, hd1⟩ := ih (by omega)
    have hlt : n < tableSHIFT.length := by simp [tableSHIFT]; omega
    have hle : tableSHIFT[n] ≤ 28 := shift_in_range _ (List.getElem_mem hlt)
    obtain ⟨c2, h2, hc2⟩ := rotateLeft_ok c1 tableSHIFT[n] true (by omega)
    obtain ⟨d2, h3, hd2⟩ := rotateLeft_ok d1 tableSHIFT[n] true (by omega)
    refine ⟨c2, d2, ?_, by omega, by omega⟩
    simp [rotateHalves, h1, tabRead_ok _ _ hlt, h2, h3, bind, Except.bind, pure, Except.pure]

/-- `KeySchedule` on a round number it accepts, through its halves (R152). -/
theorem keySchedule_eq (key : Key) (r : Nat) (h1 : 1 ≤ r) (h2 : r ≤ 16) :
    ∃ c d c' d', keyHalves key = .ok (c, d) ∧ rotateHalves r c d = .ok (c', d') ∧ c.length = 28 ∧ d.length = 28 ∧
      c'.length = 28 ∧ d'.length = 28 ∧ keySchedule key r = permute (c' ++ d') tablePC2 := by
  obtain ⟨c, d, hk, hc, hd⟩ := keyHalves_ok key
  obtain ⟨c', d', hr, hc', hd'⟩ := rotateHalves_ok r c d h2 hc hd
  refine ⟨c, d, c', d', hk, hr, hc, hd, hc', hd', ?_⟩
  have : ¬(r = 0 ∨ r > Config.rounds) := by simp [Config.rounds]; omega
  simp [keySchedule, this, hk, hr, bind, Except.bind]

theorem keySchedule_ok (key : Key) (r : Nat) (h1 : 1 ≤ r) (h2 : r ≤ 16) :
    ∃ k, keySchedule key r = .ok k ∧ k.length = 48 := by
  obtain ⟨c, d, c', d', -, -, -, -, hc', hd', h⟩ := keySchedule_eq key r h1 h2
  exact ⟨_, by rw [h, permute_ok _ _ (by simp [tablePC2, hc', hd'])], by simp [tablePC2]⟩

/-- Every one of the 64 addresses of every box is defined (20_memory.md R52), and every entry fits 4 bits (R51). -/
theorem sboxRead_in_range :
    ∀ b < 8, ∀ row < 4, ∀ col < 16, ((sboxRead b row col).value.any fun v => decide (v < 16)) = true := by
  decide +kernel

theorem sboxRead_ok (b row col : Nat) (hb : b < 8) (hr : row < 4) (hc : col < 16) :
    ∃ v, sboxRead b row col = .ok v ∧ v < 16 := by
  have h := sboxRead_in_range b hb row hr col hc
  cases hv : sboxRead b row col with
  | error e => simp [hv, Res.value] at h
  | ok v => exact ⟨v, rfl, by simpa [hv, Res.value] using h⟩

theorem sboxRow_lt (grp : BitSeq) : sboxRow grp < 4 := by
  have h0 := Bool.toNat_le (grp.getD 0 false)
  have h5 := Bool.toNat_le (grp.getD 5 false)
  unfold sboxRow
  omega

theorem sboxCol_lt (grp : BitSeq) : sboxCol grp < 16 := by
  have h := bitsToInt_lt (slice grp 1 5)
  have hl : (slice grp 1 5).length ≤ 4 := by simp
  calc sboxCol grp < 2 ^ (slice grp 1 5).length := h
    _ ≤ 2 ^ 4 := Nat.pow_le_pow_right (by norm_num) hl

theorem sbox_ok (g : Nat) (grp : BitSeq) (hg : g < 8) (h : grp.length = 6) :
    ∃ out, sbox g grp = .ok out ∧ out.length = 4 := by
  obtain ⟨v, hv, hlt⟩ := sboxRead_ok g (sboxRow grp) (sboxCol grp) hg (sboxRow_lt grp) (sboxCol_lt grp)
  exact ⟨bitsOf v 4, by simp [sbox, h, hv, bind, Except.bind, intToBits_ok v 4 hlt], by simp⟩

theorem sboxes_ok (gs : List BitSeq) (g : Nat) (hg : g + gs.length ≤ 8) (h : ∀ x ∈ gs, x.length = 6) :
    ∃ out, sboxes g gs = .ok out ∧ out.length = 4 * gs.length := by
  induction gs generalizing g with
  | nil => exact ⟨[], rfl, rfl⟩
  | cons x gs ih =>
    rw [List.length_cons] at hg
    obtain ⟨a, ha, hla⟩ := sbox_ok g x (by omega) (h x List.mem_cons_self)
    obtain ⟨b, hb, hlb⟩ := ih (g + 1) (by omega) fun y hy => h y (List.mem_cons_of_mem _ hy)
    refine ⟨a ++ b, by simp [sboxes, ha, hb, bind, Except.bind, pure, Except.pure], ?_⟩
    simp [hla, hlb]
    omega

theorem substitute_ok (x : BitSeq) (h : x.length = 48) : ∃ s, substitute x = .ok s ∧ s.length = 32 := by
  have hlen : ∀ y ∈ (List.range 8).map (fun g => slice x (6 * g) (6 * g + 6)), y.length = 6 := by
    intro y hy
    obtain ⟨g, hg, rfl⟩ := List.mem_map.1 hy
    rw [List.mem_range] at hg
    simp [h]
    omega
  obtain ⟨s, hs, hl⟩ := sboxes_ok _ 0 (by simp) hlen
  refine ⟨s, ?_, by simpa using hl⟩
  simp [substitute, cut_ok x 6 8 (by simp [h]), bind, Except.bind, hs]

/-- `FeistelRound` on operands of its widths: its four steps (R166 to R169). -/
theorem feistelRound_eq (right subkey : BitSeq) (hr : right.length = 32) (hk : subkey.length = 48) :
    ∃ e x s, permute right tableE = .ok e ∧ e.length = 48 ∧ xorSeq e subkey = .ok x ∧ x.length = 48 ∧
      substitute x = .ok s ∧ s.length = 32 ∧ feistelRound right subkey = permute s tableP := by
  have he := permute_ok right tableE (by simp [tableE, hr])
  have hel : (tableE.entries.map fun j => right.getD (j - 1) false).length = 48 := by simp [tableE]
  have hx := xorSeq_ok _ subkey (hel.trans hk.symm)
  have hxl : (List.zipWith Bool.xor (tableE.entries.map fun j => right.getD (j - 1) false) subkey).length = 48 := by
    rw [List.length_zipWith, hel, hk]
    rfl
  obtain ⟨s, hs, hsl⟩ := substitute_ok _ hxl
  refine ⟨_, _, s, he, hel, hx, hxl, hs, hsl, ?_⟩
  simp only [feistelRound, hr, hk, and_self, if_true, he, bind, Except.bind, hx, hs]

theorem feistelRound_ok (right subkey : BitSeq) (hr : right.length = 32) (hk : subkey.length = 48) :
    ∃ f, feistelRound right subkey = .ok f ∧ f.length = 32 := by
  obtain ⟨e, x, s, -, -, -, -, -, hs, h⟩ := feistelRound_eq right subkey hr hk
  exact ⟨_, by rw [h, permute_ok _ _ (by simp [tableP, hs])], by simp [tableP]⟩

theorem roundBody_ok (key : Key) (r : Nat) (left right : BitSeq) (h1 : 1 ≤ r) (h2 : r ≤ 16) (hl : left.length = 32)
    (hr : right.length = 32) :
    ∃ k f, keySchedule key r = .ok k ∧ k.length = 48 ∧ feistelRound right k = .ok f ∧ f.length = 32 ∧
      roundBody key r left right = .ok (right, List.zipWith Bool.xor f left) := by
  obtain ⟨k, hk, hkl⟩ := keySchedule_ok key r h1 h2
  obtain ⟨f, hf, hfl⟩ := feistelRound_ok right k hr hkl
  refine ⟨k, f, hk, hkl, hf, hfl, ?_⟩
  simp [roundBody, hk, hf, xorSeq_ok f left (by omega), bind, Except.bind, pure, Except.pure]

/-- The effective round number of a loop counter in 1..16 is in 1..16 (R88). -/
theorem effectiveRound_range (mode : Mode) (i : Nat) (h1 : 1 ≤ i) (h2 : i ≤ 16) :
    1 ≤ effectiveRound mode i ∧ effectiveRound mode i ≤ 16 := by
  cases mode <;> simp [effectiveRound] <;> omega

theorem initialHalves_ok (block : Block) :
    ∃ p, permute (toSeq block) tableIP = .ok p ∧ p.length = 64 ∧
      initialHalves block = .ok (slice p 0 32, slice p 32 64) := by
  have hp := permute_ok (toSeq block) tableIP (by simp [tableIP])
  refine ⟨_, hp, by simp [tableIP], ?_⟩
  rw [initialHalves, intToBits_toNat]
  simp only [bind, Except.bind, hp]
  exact split_ok _ 32 (by simp [tableIP])

theorem finalBlock_ok (left right : BitSeq) (hl : left.length = 32) (hr : right.length = 32) :
    ∃ out, permute (right ++ left) tableFP = .ok out ∧ out.length = 64 ∧
      finalBlock left right = .ok (BitVec.ofNat 64 (bitsToInt out)) := by
  have hp := permute_ok (right ++ left) tableFP (by simp [tableFP, hl, hr])
  have hlen : (tableFP.entries.map fun j => (right ++ left).getD (j - 1) false).length = 64 := by simp [tableFP]
  refine ⟨_, hp, hlen, ?_⟩
  simp only [finalBlock, hp, bind, Except.bind]
  exact pack_ok 64 _ hlen

end Sys2Proof.Machine
end

