-- ==== Sys2Proof/Laws/State.lean ====
section
/-! SUPPORT. What each state update of `Ops` leaves in each field, by `rfl`, so that no proof unfolds an update. -/

namespace Sys2Proof.Machine

@[simp] theorem invalidateResults_st (s : State) : (invalidateResults s).st = s.st := rfl
@[simp] theorem invalidateResults_op (s : State) : (invalidateResults s).op = s.op := rfl
@[simp] theorem invalidateResults_key (s : State) : (invalidateResults s).key = s.key := rfl
@[simp] theorem invalidateResults_l (s : State) : (invalidateResults s).l = s.l := rfl
@[simp] theorem invalidateResults_r (s : State) : (invalidateResults s).r = s.r := rfl
@[simp] theorem invalidateResults_i (s : State) : (invalidateResults s).i = s.i := rfl
@[simp] theorem invalidateResults_err (s : State) : (invalidateResults s).err = s.err := rfl
@[simp] theorem invalidateResults_blockOut (s : State) : (invalidateResults s).blockOut = none := rfl
@[simp] theorem invalidateResults_subkeyOut (s : State) : (invalidateResults s).subkeyOut = none := rfl
@[simp] theorem invalidateResults_halfOut (s : State) : (invalidateResults s).halfOut = none := rfl
@[simp] theorem invalidateResults_pins (s : State) : (invalidateResults s).pins = s.pins := rfl
@[simp] theorem invalidateResults_later (s : State) : (invalidateResults s).later = s.later := rfl
@[simp] theorem invalidateResults_fresh (s : State) : (invalidateResults s).fresh = s.fresh := rfl

@[simp] theorem reportError_st (c : BitVec 2) (s : State) : (reportError c s).st = .fault := rfl
@[simp] theorem reportError_op (c : BitVec 2) (s : State) : (reportError c s).op = s.op := rfl
@[simp] theorem reportError_key (c : BitVec 2) (s : State) : (reportError c s).key = s.key := rfl
@[simp] theorem reportError_l (c : BitVec 2) (s : State) : (reportError c s).l = s.l := rfl
@[simp] theorem reportError_r (c : BitVec 2) (s : State) : (reportError c s).r = s.r := rfl
@[simp] theorem reportError_i (c : BitVec 2) (s : State) : (reportError c s).i = s.i := rfl
@[simp] theorem reportError_err (c : BitVec 2) (s : State) : (reportError c s).err = c := rfl
@[simp] theorem reportError_blockOut (c : BitVec 2) (s : State) : (reportError c s).blockOut = none := rfl
@[simp] theorem reportError_subkeyOut (c : BitVec 2) (s : State) : (reportError c s).subkeyOut = none := rfl
@[simp] theorem reportError_halfOut (c : BitVec 2) (s : State) : (reportError c s).halfOut = none := rfl
@[simp] theorem reportError_pins (c : BitVec 2) (s : State) : (reportError c s).pins = s.pins := rfl
@[simp] theorem reportError_later (c : BitVec 2) (s : State) : (reportError c s).later = s.later := rfl
@[simp] theorem reportError_fresh (c : BitVec 2) (s : State) : (reportError c s).fresh = s.fresh := rfl

@[simp] theorem beginAccept_st (o : BitVec 2) (s : State) : (beginAccept o s).st = s.st := rfl
@[simp] theorem beginAccept_op (o : BitVec 2) (s : State) : (beginAccept o s).op = o := rfl
@[simp] theorem beginAccept_key (o : BitVec 2) (s : State) : (beginAccept o s).key = s.key := rfl
@[simp] theorem beginAccept_l (o : BitVec 2) (s : State) : (beginAccept o s).l = s.l := rfl
@[simp] theorem beginAccept_r (o : BitVec 2) (s : State) : (beginAccept o s).r = s.r := rfl
@[simp] theorem beginAccept_i (o : BitVec 2) (s : State) : (beginAccept o s).i = s.i := rfl
@[simp] theorem beginAccept_err (o : BitVec 2) (s : State) : (beginAccept o s).err = 0#2 := rfl
@[simp] theorem beginAccept_blockOut (o : BitVec 2) (s : State) : (beginAccept o s).blockOut = none := rfl
@[simp] theorem beginAccept_subkeyOut (o : BitVec 2) (s : State) : (beginAccept o s).subkeyOut = none := rfl
@[simp] theorem beginAccept_halfOut (o : BitVec 2) (s : State) : (beginAccept o s).halfOut = none := rfl
@[simp] theorem beginAccept_pins (o : BitVec 2) (s : State) : (beginAccept o s).pins = s.pins := rfl
@[simp] theorem beginAccept_later (o : BitVec 2) (s : State) : (beginAccept o s).later = s.later := rfl
@[simp] theorem beginAccept_fresh (o : BitVec 2) (s : State) : (beginAccept o s).fresh = s.fresh := rfl

@[simp] theorem resetStep_st (s : State) : (resetStep s).st = .idle := rfl
@[simp] theorem resetStep_op (s : State) : (resetStep s).op = Config.freeOp s.fresh := rfl
@[simp] theorem resetStep_key (s : State) : (resetStep s).key = Config.freeKey s.fresh := rfl
@[simp] theorem resetStep_l (s : State) : (resetStep s).l = Config.freeL s.fresh := rfl
@[simp] theorem resetStep_r (s : State) : (resetStep s).r = Config.freeR s.fresh := rfl
@[simp] theorem resetStep_i (s : State) : (resetStep s).i = Config.freeI s.fresh := rfl
@[simp] theorem resetStep_err (s : State) : (resetStep s).err = 0#2 := rfl
@[simp] theorem resetStep_blockOut (s : State) : (resetStep s).blockOut = none := rfl
@[simp] theorem resetStep_subkeyOut (s : State) : (resetStep s).subkeyOut = none := rfl
@[simp] theorem resetStep_halfOut (s : State) : (resetStep s).halfOut = none := rfl
@[simp] theorem resetStep_pins (s : State) : (resetStep s).pins = s.pins := rfl
@[simp] theorem resetStep_later (s : State) : (resetStep s).later = s.later := rfl
@[simp] theorem resetStep_fresh (s : State) : (resetStep s).fresh = s.fresh + 1 := rfl

@[simp] theorem drive_st (p : Inputs) (q : List Inputs) (s : State) : (drive p q s).st = s.st := rfl
@[simp] theorem drive_op (p : Inputs) (q : List Inputs) (s : State) : (drive p q s).op = s.op := rfl
@[simp] theorem drive_key (p : Inputs) (q : List Inputs) (s : State) : (drive p q s).key = s.key := rfl
@[simp] theorem drive_l (p : Inputs) (q : List Inputs) (s : State) : (drive p q s).l = s.l := rfl
@[simp] theorem drive_r (p : Inputs) (q : List Inputs) (s : State) : (drive p q s).r = s.r := rfl
@[simp] theorem drive_i (p : Inputs) (q : List Inputs) (s : State) : (drive p q s).i = s.i := rfl
@[simp] theorem drive_err (p : Inputs) (q : List Inputs) (s : State) : (drive p q s).err = s.err := rfl
@[simp] theorem drive_blockOut (p : Inputs) (q : List Inputs) (s : State) : (drive p q s).blockOut = s.blockOut := rfl
@[simp] theorem drive_subkeyOut (p : Inputs) (q : List Inputs) (s : State) : (drive p q s).subkeyOut = s.subkeyOut := rfl
@[simp] theorem drive_halfOut (p : Inputs) (q : List Inputs) (s : State) : (drive p q s).halfOut = s.halfOut := rfl
@[simp] theorem drive_pins (p : Inputs) (q : List Inputs) (s : State) : (drive p q s).pins = p := rfl
@[simp] theorem drive_later (p : Inputs) (q : List Inputs) (s : State) : (drive p q s).later = q := rfl
@[simp] theorem drive_fresh (p : Inputs) (q : List Inputs) (s : State) : (drive p q s).fresh = s.fresh := rfl

@[simp] theorem nextPins_st (s : State) : (nextPins s).st = s.st := by
  unfold nextPins; split <;> rfl
@[simp] theorem nextPins_op (s : State) : (nextPins s).op = s.op := by
  unfold nextPins; split <;> rfl
@[simp] theorem nextPins_key (s : State) : (nextPins s).key = s.key := by
  unfold nextPins; split <;> rfl
@[simp] theorem nextPins_l (s : State) : (nextPins s).l = s.l := by
  unfold nextPins; split <;> rfl
@[simp] theorem nextPins_r (s : State) : (nextPins s).r = s.r := by
  unfold nextPins; split <;> rfl
@[simp] theorem nextPins_i (s : State) : (nextPins s).i = s.i := by
  unfold nextPins; split <;> rfl
@[simp] theorem nextPins_err (s : State) : (nextPins s).err = s.err := by
  unfold nextPins; split <;> rfl
@[simp] theorem nextPins_blockOut (s : State) : (nextPins s).blockOut = s.blockOut := by
  unfold nextPins; split <;> rfl
@[simp] theorem nextPins_subkeyOut (s : State) : (nextPins s).subkeyOut = s.subkeyOut := by
  unfold nextPins; split <;> rfl
@[simp] theorem nextPins_halfOut (s : State) : (nextPins s).halfOut = s.halfOut := by
  unfold nextPins; split <;> rfl
@[simp] theorem nextPins_fresh (s : State) : (nextPins s).fresh = s.fresh := by
  unfold nextPins; split <;> rfl

/-- When the host has nothing more to drive, its levels stay. -/
@[simp] theorem nextPins_of_later_nil (s : State) (h : s.later = []) : nextPins s = s := by
  simp [nextPins, h]

/-- The outputs do not show what the host drives. -/
@[simp] theorem outputs_nextPins (s : State) : outputs (nextPins s) = outputs s := by
  simp [outputs, busy, done]

/-- Driving the ports changes no output. -/
@[simp] theorem outputs_drive (p : Inputs) (q : List Inputs) (s : State) : outputs (drive p q s) = outputs s := rfl

/-- Two states are equal when all fields are. -/
theorem State.ext_fields (s t : State) (hst : s.st = t.st) (hop : s.op = t.op) (hkey : s.key = t.key) (hl : s.l = t.l)
    (hr : s.r = t.r) (hi : s.i = t.i) (herr : s.err = t.err) (hb : s.blockOut = t.blockOut)
    (hk : s.subkeyOut = t.subkeyOut) (hh : s.halfOut = t.halfOut) (hp : s.pins = t.pins) (hq : s.later = t.later)
    (hf : s.fresh = t.fresh) : s = t := by
  cases s; cases t; simp_all

end Sys2Proof.Machine
end

