-- ==== Sys2Proof/Laws/Ops.lean ====
section
/-! SUPPORT. One lemma per shared operation of the steps: everything it can do. Later proofs cite these and do not unfold the
operations. -/

namespace Sys2Proof.Machine

/-! ## Ports and sequences -/

theorem bitsOf_succ (v w : Nat) : bitsOf v (w + 1) = v.testBit w :: bitsOf v w := by
  apply List.ext_getElem
  · simp
  · intro k h1 h2
    rw [bitsOf_getElem _ _ _ (by simpa using h1)]
    cases k with
    | zero => simp
    | succ k =>
      rw [List.getElem_cons_succ, bitsOf_getElem _ _ _ (by simpa using h2)]
      congr 1
      omega

theorem bitsToInt_bitsOf (v w : Nat) : bitsToInt (bitsOf v w) = v % 2 ^ w := by
  induction w with
  | zero => simp [bitsOf, Nat.mod_one]
  | succ w ih =>
    rw [bitsOf_succ, bitsToInt_cons, ih, bitsOf_length, Nat.toNat_testBit, Nat.mod_pow_succ]
    ring

theorem bitsOf_bitsToInt (s : BitSeq) : bitsOf (bitsToInt s) s.length = s := by
  induction s with
  | nil => rfl
  | cons b s ih =>
    have hlt := bitsToInt_lt s
    rw [List.length_cons, bitsOf_succ, bitsToInt_cons]
    congr 1
    · cases b
      · simp [Nat.testBit_lt_two_pow hlt]
      · simp [Nat.testBit_two_pow_add_eq, Nat.testBit_lt_two_pow hlt]
    · refine Eq.trans ?_ ih
      apply List.ext_getElem
      · simp
      · intro k h1 h2
        have hk : k < s.length := by simpa using h2
        rw [bitsOf_getElem _ _ _ hk, bitsOf_getElem _ _ _ hk]
        cases b
        · simp
        · simp [Nat.testBit_two_pow_add_gt (show s.length - 1 - k < s.length by omega)]

/-- A register put on sequences and back is itself (00_scope.md R13). -/
theorem pack_toSeq {w : Nat} (v : BitVec w) : pack w (toSeq v) = .ok v := by
  rw [pack_ok _ _ (toSeq_length v), toSeq, bitsToInt_bitsOf, Nat.mod_eq_of_lt v.isLt]
  simp

/-- A sequence of a register's width, stored, is read back unchanged (R13). -/
theorem pack_spec (w : Nat) (s : BitSeq) (h : s.length = w) : ∃ v, pack w s = .ok v ∧ toSeq v = s := by
  subst h
  refine ⟨_, pack_ok _ s rfl, ?_⟩
  rw [toSeq, BitVec.toNat_ofNat, Nat.mod_eq_of_lt (bitsToInt_lt s), bitsOf_bitsToInt]

theorem toSeq_injective {w : Nat} {a b : BitVec w} (h : toSeq a = toSeq b) : a = b := by
  have := pack_toSeq a
  rw [h, pack_toSeq] at this
  exact (Except.ok.inj this).symm

theorem toSeq_toNat {w : Nat} (v : BitVec w) : bitsToInt (toSeq v) = v.toNat := by
  rw [toSeq, bitsToInt_bitsOf, Nat.mod_eq_of_lt v.isLt]

/-! ## The end of a step -/

@[simp] theorem onNext_next {α β : Type} (a : α) (f : α → Host.Outcome β Fault Refusal) : onNext (.next a) f = f a := rfl

@[simp] theorem onNext_fault {α β : Type} (e : Fault) (f : α → Host.Outcome β Fault Refusal) :
    onNext (.fault e) f = .fault e := rfl

@[simp] theorem onNext_refused {α β : Type} (e : Refusal) (f : α → Host.Outcome β Fault Refusal) :
    onNext (.refused e) f = .refused e := rfl

/-- Everything `settle` can do when it goes on (R204, R206). -/
theorem settle_eq_next {s t : State} {r : Res State} :
    settle s r = .next t ↔ r = .ok t ∨ ∃ e c, r = .error e ∧ errCode e = some c ∧ t = reportError c s := by
  cases r with
  | ok u => simp [settle]
  | error e => cases e <;> simp [settle, errCode, eq_comm]

@[simp] theorem settle_ok (s t : State) : settle s (.ok t) = .next t := rfl

@[simp] theorem settle_invalidRound (s : State) :
    settle s (.error .invalidRound) = .next (reportError Config.errInvalidRound s) := rfl

/-- A command presented to a ready engine is accepted (R28). -/
theorem present_ready (a : State → Host.Outcome State Fault Refusal) (s : State) (h : Ready s) : present a s = a s := by
  unfold present
  cases hs : s.st <;> simp_all

/-- A command presented to a busy engine is ignored (R241). -/
theorem present_busy (a : State → Host.Outcome State Fault Refusal) (s : State) (h : s.st = .busy) :
    present a s = advance s := by
  simp [present, h]

theorem tick_busy (s : State) (h : s.st = .busy) : tick s = advance s := by simp [tick, h]

theorem tick_ready (s : State) (h : Ready s) : tick s = .next s := by
  unfold tick
  cases hs : s.st <;> simp_all

/-! ## The accept steps -/

/-- The accept step of a process command (R186). -/
theorem acceptProcess_next (op : BitVec 2) (block : Block) (key : Key) (s : State) :
    ∃ p l r, permute (toSeq block) tableIP = .ok p ∧ toSeq l = slice p 0 32 ∧ toSeq r = slice p 32 64 ∧
      acceptProcess op block key s =
        .next { beginAccept op s with key := key, l := l, r := r, i := 1#5, st := .busy } := by
  obtain ⟨p, hp, hlen, hi⟩ := initialHalves_ok block
  obtain ⟨l, hl, hls⟩ := pack_spec 32 (slice p 0 32) (by simp [hlen])
  obtain ⟨r, hr, hrs⟩ := pack_spec 32 (slice p 32 64) (by simp [hlen])
  exact ⟨p, l, r, hp, hls, hrs, by simp [acceptProcess, hi, hl, hr, bind, Except.bind, pure, Except.pure]⟩

/-- The accept step of KEYSCHED with a valid round (R158). -/
theorem acceptKeysched_valid (key : Key) (round : BitVec 8) (s : State) (h1 : 1 ≤ round.toNat) (h2 : round.toNat ≤ 16) :
    ∃ k v, keySchedule key round.toNat = .ok k ∧ toSeq v = k ∧
      acceptKeysched key round s =
        .next { beginAccept Config.opKeysched s with subkeyOut := some v, st := .done } := by
  obtain ⟨k, hk, hlen⟩ := keySchedule_ok key _ h1 h2
  obtain ⟨v, hv, hvs⟩ := pack_spec 48 k hlen
  exact ⟨k, v, hk, hvs, by simp [acceptKeysched, hk, hv, bind, Except.bind, pure, Except.pure]⟩

/-- The accept step of KEYSCHED with an invalid round (R158, R204). -/
theorem acceptKeysched_invalid (key : Key) (round : BitVec 8) (s : State) (h : round.toNat = 0 ∨ 16 < round.toNat) :
    acceptKeysched key round s =
      .next (reportError Config.errInvalidRound (beginAccept Config.opKeysched s)) := by
  have : round.toNat = 0 ∨ round.toNat > Config.rounds := h
  simp [acceptKeysched, keySchedule, this, bind, Except.bind]

/-- The accept step of FROUND (R172). -/
theorem acceptFround_next (half : Half) (subkey : Subkey) (s : State) :
    ∃ f v, feistelRound (toSeq half) (toSeq subkey) = .ok f ∧ toSeq v = f ∧
      acceptFround half subkey s =
        .next { beginAccept Config.opFround s with halfOut := some v, st := .done } := by
  obtain ⟨f, hf, hlen⟩ := feistelRound_ok _ _ (toSeq_length half) (toSeq_length subkey)
  obtain ⟨v, hv, hvs⟩ := pack_spec 32 f hlen
  exact ⟨f, v, hf, hvs, by simp [acceptFround, hf, hv, bind, Except.bind, pure, Except.pure]⟩

/-! ## The steps in BUSY -/

/-- The round step with the loop counter in range (R187). -/
theorem roundStep_next (s : State) (h1 : 1 ≤ s.i.toNat) (h2 : s.i.toNat ≤ 16) :
    ∃ r, roundBody s.key (effectiveRound (modeOf s.op) s.i.toNat) (toSeq s.l) (toSeq s.r) = .ok (toSeq s.r, toSeq r) ∧
      roundStep s = .next { s with l := s.r, r := r, i := s.i + 1#5 } := by
  obtain ⟨e1, e2⟩ := effectiveRound_range (modeOf s.op) _ h1 h2
  obtain ⟨k, f, -, -, -, hfl, hb⟩ := roundBody_ok s.key _ _ _ e1 e2 (toSeq_length s.l) (toSeq_length s.r)
  obtain ⟨r, hr, hrs⟩ := pack_spec 32 (List.zipWith Bool.xor f (toSeq s.l)) (by simp [hfl])
  exact ⟨r, by rw [hb, hrs], by simp [roundStep, hb, hr, pack_toSeq, bind, Except.bind, pure, Except.pure]⟩

/-- The final step (R188). -/
theorem finalStep_next (s : State) :
    ∃ v, finalBlock (toSeq s.l) (toSeq s.r) = .ok v ∧
      finalStep s = .next { s with blockOut := some v, st := .done } := by
  obtain ⟨out, -, -, h⟩ := finalBlock_ok _ _ (toSeq_length s.l) (toSeq_length s.r)
  exact ⟨_, h, by simp [finalStep, h, bind, Except.bind, pure, Except.pure]⟩

theorem advance_round (s : State) (h : s.i.toNat ≤ 16) : advance s = roundStep s := by
  simp [advance, Config.rounds, h]

theorem advance_final (s : State) (h : s.i.toNat = 17) : advance s = finalStep s := by
  simp [advance, Config.rounds, h]

/-- Ending a step does not look at what the host drives. -/
theorem settle_drive (p : Inputs) (q : List Inputs) (s : State) (r : Res State) :
    settle (drive p q s) (r.map (drive p q)) = onNext (settle s r) fun t => .next (drive p q t) := by
  cases r with
  | ok t => rfl
  | error e => cases e <;> rfl

/-- What a busy engine does does not depend on the ports (R241). -/
theorem advance_drive (p : Inputs) (q : List Inputs) (s : State) :
    advance (drive p q s) = onNext (advance s) fun t => .next (drive p q t) := by
  have hround : roundStep (drive p q s) = onNext (roundStep s) fun t => .next (drive p q t) := by
    rw [roundStep, roundStep, ← settle_drive]
    congr 1
    simp only [drive_key, drive_op, drive_i, drive_l, drive_r]
    cases roundBody s.key (effectiveRound (modeOf s.op) s.i.toNat) (toSeq s.l) (toSeq s.r) with
    | error e => rfl
    | ok h =>
      simp only [bind, Except.bind]
      cases pack 32 h.1 with
      | error e => rfl
      | ok l => cases pack 32 h.2 <;> rfl
  have hfinal : finalStep (drive p q s) = onNext (finalStep s) fun t => .next (drive p q t) := by
    rw [finalStep, finalStep, ← settle_drive]
    simp only [drive_l, drive_r]
    cases finalBlock (toSeq s.l) (toSeq s.r) <;> rfl
  unfold advance
  rw [hround, hfinal, drive_i]
  split
  · rfl
  · split <;> rfl

theorem i_succ_toNat (s : State) (h : s.i.toNat ≤ 16) : (s.i + 1#5).toNat = s.i.toNat + 1 := by
  rw [BitVec.toNat_add]
  simp
  omega

/-- A step in BUSY without a reset is the operation's own step, whatever is presented (R241). -/
theorem react_busy (s : State) (hr : s.pins.rst = false) (hb : s.st = .busy) : react s = advance s := by
  unfold react
  simp only [hr, tick_busy s hb]
  cases decode s.pins.cmd <;> simp [exec, execEncipher, execDecipher, execKeysched, execFround, present_busy _ s hb]

/-- A step in which a command is presented is that command's (R189). -/
theorem react_presented (s : State) (hr : s.pins.rst = false) (hs : s.pins.start = true) :
    react s = exec (decode s.pins.cmd) s := by
  simp [react, hr, hs]

/-- A step with a reset requested is the reset step (R230). -/
theorem react_reset (s : State) (hr : s.pins.rst = true) : react s = .next (resetStep s) := by
  simp [react, hr]

/-- A step with nothing presented to a ready engine changes nothing (R189). -/
theorem react_quiet (s : State) (h : Ready s) (hr : s.pins.rst = false) (hs : s.pins.start = false) :
    react s = .next s := by
  simp [react, hr, hs, tick_ready s h]

/-- A step that goes on: the reaction, then the host's next levels. -/
theorem step_of_react {s t : State} (h : react s = .next t) : step s = .next (nextPins t) := by
  simp [step, h, onNext]

/-- The converse of `step_of_react`. -/
theorem react_of_step {s t : State} (h : step s = .next t) : ∃ u, react s = .next u ∧ t = nextPins u := by
  unfold step at h
  cases hr : react s with
  | next u => rw [hr] at h; simp [onNext] at h; exact ⟨u, rfl, h.symm⟩
  | fault e => rw [hr] at h; simp [onNext] at h
  | refused e => rw [hr] at h; simp [onNext] at h

/-- The host that does not reset for `n + 1` steps does not reset for `n` steps after one. -/
theorem noResetFor_nextPins {n : Nat} {s : State} (h : NoResetFor (n + 1) s) : NoResetFor n (nextPins s) := by
  obtain ⟨h1, h2⟩ := h
  unfold nextPins
  cases hl : s.later with
  | nil => simp [NoResetFor, h1, hl]
  | cons p q =>
    rw [hl] at h2
    exact ⟨h2 p (by simp), fun x hx => h2 x (by simp [hx])⟩

/-! ## Written programs -/

/-- After an error a line binds nothing: its name has no binding, every other name keeps its own (log 15). -/
theorem bindResult_error (n : String) (i : Instr) (s : State) (env : List (String × Result)) (h : s.err ≠ 0#2) :
    bindResult (some n) i s env = .next (env.filter fun b => b.1 ≠ n) := by
  simp [bindResult, Config.errNone, h]

/-- After a command that ended without error a line binds its name to the result read (30_encoding.md R94). -/
theorem bindResult_ok (n : String) (i : Instr) (s : State) (env : List (String × Result)) (r : Result) (h : s.err = 0#2)
    (hr : readResult (resultPort i) s = .next r) : bindResult (some n) i s env = .next ((n, r) :: env) := by
  simp [bindResult, Config.errNone, h, hr]

/-! ## Runs -/

theorem run_succ_of_step (M : Host.Core) (n : Nat) {s t : M.State} (h : M.step s = .next t) :
    M.run (n + 1) s = M.run n t := by
  simp only [Host.Core.run, h]

theorem run_add_of_run (M : Host.Core) (n m : Nat) {s t : M.State} (h : M.run n s = .next t) :
    M.run (n + m) s = M.run m t := by
  induction n generalizing s with
  | zero => cases h; simp
  | succ n ih =>
    cases hs : M.step s with
    | next u =>
      rw [run_succ_of_step M n hs] at h
      rw [show n + 1 + m = n + m + 1 by omega, run_succ_of_step M (n + m) hs]
      exact ih h
    | fault e => simp [Host.Core.run, hs] at h
    | refused e => simp [Host.Core.run, hs] at h

/-- A run of no step ends where it starts. -/
theorem runsTo_zero (s : State) : RunsTo 0 s s := rfl

/-- A run of `n + 1` steps is a step and a run of `n` steps. -/
theorem runsTo_succ {n : Nat} {s t u : State} (h : step s = .next t) (h' : RunsTo n t u) : RunsTo (n + 1) s u :=
  (run_succ_of_step Sys2Proof.core n h).trans h'

theorem runsTo_one {s t : State} (h : step s = .next t) : RunsTo 1 s t := runsTo_succ h (runsTo_zero t)

/-- Runs follow one another. -/
theorem runsTo_add {n m : Nat} {s t u : State} (h : RunsTo n s t) (h' : RunsTo m t u) : RunsTo (n + m) s u :=
  (run_add_of_run Sys2Proof.core n m h).trans h'

theorem step_of_run_succ (M : Host.Core) {n : Nat} {s t : M.State} (h : M.run (n + 1) s = .next t) :
    ∃ u, M.step s = .next u ∧ M.run n u = .next t := by
  cases hs : M.step s with
  | next u => exact ⟨u, rfl, by rwa [run_succ_of_step M n hs] at h⟩
  | fault e => simp [Host.Core.run, hs] at h
  | refused e => simp [Host.Core.run, hs] at h

/-- The first step of a run. -/
theorem runsTo_succ_iff {n : Nat} {s t : State} : RunsTo (n + 1) s t ↔ ∃ u, step s = .next u ∧ RunsTo n u t :=
  ⟨step_of_run_succ Sys2Proof.core, fun ⟨_, h, h'⟩ => runsTo_succ h h'⟩

/-- A run has one end. -/
theorem runsTo_unique {n : Nat} {s t u : State} (h : RunsTo n s t) (h' : RunsTo n s u) : t = u :=
  Host.Outcome.next.inj (h.symm.trans h')

end Sys2Proof.Machine
end

