-- ==== Sys2Proof/Laws/PerInstr.lean ====
section
/-! SUPPORT. Per-instruction lemmas about encoding. Family `EncodeFrame`: presenting a command writes only `op` and the
operand ports its format reads (30_encoding.md R81, R92). -/

namespace Sys2Proof.Laws.EncodeFrame

open Sys2Proof

/-- The ports that are not among those a command reads (R81) keep what they carry. -/
def Statement (i : Instr) : Prop :=
  ∀ c : CommandPorts,
    ((encodeOnto i c).blockIn = c.blockIn ∨ Machine.resultPort i = .blockOut) ∧
    ((encodeOnto i c).keyIn = c.keyIn ∨ Machine.resultPort i ≠ .halfOut) ∧
    ((encodeOnto i c).roundIn = c.roundIn ∨ Machine.resultPort i = .subkeyOut) ∧
    ((encodeOnto i c).halfIn = c.halfIn ∨ Machine.resultPort i = .halfOut) ∧
    ((encodeOnto i c).subkeyIn = c.subkeyIn ∨ Machine.resultPort i = .halfOut)

theorem encipher (block : Block) (key : Key) : Statement (.encipher block key) := by
  intro c; simp [encodeOnto, Machine.resultPort]

theorem decipher (block : Block) (key : Key) : Statement (.decipher block key) := by
  intro c; simp [encodeOnto, Machine.resultPort]

theorem keysched (key : Key) (round : BitVec 8) : Statement (.keysched key round) := by
  intro c; simp [encodeOnto, Machine.resultPort]

theorem fround (half : Half) (subkey : Subkey) : Statement (.fround half subkey) := by
  intro c; simp [encodeOnto, Machine.resultPort]

end Sys2Proof.Laws.EncodeFrame
end

