-- ==== Sys2Proof/Tests/Slice0.lean ====
section
/-! SUPPORT. Tests, and a witness for every obligation with hypotheses. Every expected value is the spec's own: a rule's example
or a line of 95_test_vectors.md, named at the test; nothing is copied from the model's answers. -/

namespace Sys2Proof.Tests

set_option Elab.async false

open Sys2Proof.Machine

/-! ## Well-formedness: each check refuses an ill-formed term -/

/-- P2 of 95_test_vectors.md: a name used on the port of its own width. -/
theorem test_wf_accepts : Program.wf []
    [⟨.keysched (.lit 0x0123456789ABCDEF) (.lit 1), some "k1"⟩, ⟨.fround (.lit 0xF0AAF0AA) (.ref "k1"), some "f1"⟩] = true := by
  decide

theorem test_wf_literal_too_wide :
    Program.wf [] [⟨.encipher (.lit (2 ^ 64)) (.lit 0), none⟩] = false ∧
    Program.wf [] [⟨.decipher (.lit 0) (.lit (2 ^ 64)), none⟩] = false ∧
    Program.wf [] [⟨.keysched (.lit 0) (.lit 256), none⟩] = false ∧
    Program.wf [] [⟨.fround (.lit (2 ^ 32)) (.lit 0), none⟩] = false ∧
    Program.wf [] [⟨.fround (.lit 0) (.lit (2 ^ 48)), none⟩] = false ∧
    Program.wf [] [⟨.process (.lit (2 ^ 64)) (.lit 0) .decipher, none⟩] = false := by decide

theorem test_wf_unbound_name :
    Program.wf [] [⟨.decipher (.ref "c") (.lit 0), none⟩, ⟨.encipher (.lit 0) (.lit 0), some "c"⟩] = false := by decide

theorem test_wf_name_of_another_width :
    Program.wf [] [⟨.encipher (.lit 0) (.lit 0), some "c"⟩, ⟨.fround (.lit 0) (.ref "c"), none⟩] = false := by decide

/-! ## Decode: the words of 30_encoding.md R82 written out, on ports whose other operands hold anything (R92) -/

/-- Ports that all carry something. -/
def ports (op : BitVec 2) : CommandPorts :=
  { op := op, blockIn := 0x0123456789ABCDEF#64, keyIn := 0x133457799BBCDFF1#64, roundIn := 0b00010001#8
    halfIn := 0xF0AAF0AA#32, subkeyIn := 0x0B02679B49A5#48 }

theorem test_decode_encipher : decode (ports 0b00#2) = .encipher 0x0123456789ABCDEF#64 0x133457799BBCDFF1#64 := by decide
theorem test_decode_decipher : decode (ports 0b01#2) = .decipher 0x0123456789ABCDEF#64 0x133457799BBCDFF1#64 := by decide
theorem test_decode_keysched : decode (ports 0b10#2) = .keysched 0x133457799BBCDFF1#64 17#8 := by decide
theorem test_decode_fround : decode (ports 0b11#2) = .fround 0xF0AAF0AA#32 0x0B02679B49A5#48 := by decide

/-- R82: the encoding writes the opcode and the operand ports of its format. -/
theorem test_encode : encode (.keysched 5#64 16#8) = { CommandPorts.zero with op := 0b10#2, keyIn := 5#64, roundIn := 16#8 } := by
  decide

/-! ## The functions -/

/-- The `w` bits of `v`, as the value of a computation. -/
def bits (v w : Nat) : Option BitSeq := some (bitsOf v w)

/-- R110, R111, R113 examples; 95_test_vectors.md 3.1. -/
theorem test_int_conversions :
    (intToBits 0xA5 8).value = some [true, false, true, false, false, true, false, true] ∧
    (intToBits 13 4).value = some [true, true, false, true] ∧ (intToBits 0 0).value = some [] ∧
    (intToBits 256 8).aborts = some .outsideDomain ∧ bitsToInt [] = 0 ∧
    bitsToInt [true, false, true, false, false, true, false, true] = 165 := by decide

/-- R115, R116 examples. -/
theorem test_xor_and :
    (xorSeq (bitsOf 0b10100101 8) (bitsOf 0b00001111 8)).value = bits 0b10101010 8 ∧
    (xorSeq (bitsOf 0b101 3) (bitsOf 0b10 2)).aborts = some .lengthMismatch ∧
    (andSeq (bitsOf 0b10100101 8) (bitsOf 0b00001111 8)).value = bits 0b00000101 8 ∧
    (andSeq [true] []).aborts = some .lengthMismatch := by decide

/-- R117 examples. -/
theorem test_rotate_left :
    (rotateLeft (bitsOf 0b10100101 8) 3 true).value = bits 0b00101101 8 ∧
    (rotateLeft (bitsOf 0b10100101 8) 3 false).value = bits 0b00101000 8 ∧
    (rotateLeft (bitsOf 0b10100101 8) 8 true).value = bits 0b10100101 8 ∧
    (rotateLeft (bitsOf 0b10100101 8) 8 false).value = bits 0 8 ∧
    (rotateLeft (bitsOf 0b10100101 8) 9 true).aborts = some .outsideDomain := by decide

/-- 95_test_vectors.md 3.1 (illustrative tables) and 3.3. -/
theorem test_permute :
    (permute (bitsOf 0b1000 4) ⟨4, [2, 1, 4, 3]⟩).value = bits 0b0100 4 ∧
    (permute (bitsOf 0b10 2) ⟨2, [2, 1, 2, 1, 1]⟩).value = bits 0b01011 5 ∧
    (permute (bitsOf 0 32) tableIP).aborts = some .lengthMismatch ∧
    (permute (bitsOf 0x0123456789ABCDEF 64) tableIP).value = bits 0xCC00CCFFF0AAF0AA 64 ∧
    (permute (bitsOf 0x0123456789ABCDEF 64) tableFP).value = bits 0xFF330FAA00330FAA 64 ∧
    (permute (bitsOf 0x8000000000000000 64) tablePC1).value = bits 0x01000000000000 56 ∧
    (permute (bitsOf 0x80000000000000 56) tablePC2).value = bits 0x080000000000 48 ∧
    (permute (bitsOf 0x12345678 32) tableE).value = bits 0x0A41A82AC3F0 48 ∧
    (permute (bitsOf 0x12345678 32) tableP).value = bits 0x6E34140E 32 := by decide +kernel

/-- 95_test_vectors.md 3.3, the S-box lookups, `011011` among them: not the entry at 27. -/
theorem test_sbox :
    (sbox 0 (bitsOf 0b011011 6)).value = bits 5 4 ∧ (sbox 0 (bitsOf 0b100000 6)).value = bits 4 4 ∧
    (sbox 0 (bitsOf 0b000001 6)).value = bits 0 4 ∧ (sbox 1 (bitsOf 0b100110 6)).value = bits 11 4 ∧
    (sbox 4 (bitsOf 0b100001 6)).value = bits 11 4 ∧ (sbox 7 (bitsOf 0b111111 6)).value = bits 11 4 ∧
    (sbox 0 (bitsOf 0b01101 5)).aborts = some .lengthMismatch := by decide +kernel

/-- 42_key_schedule.md R159: the halves. -/
theorem test_key_halves :
    (keyHalves 0x0123456789ABCDEF#64).value = some (bitsOf 0xF0CCAA0 28, bitsOf 0xAACCF00 28) ∧
    (rotateHalves 1 (bitsOf 0xF0CCAA0 28) (bitsOf 0xAACCF00 28)).value = some (bitsOf 0xE199541 28, bitsOf 0x5599E01 28) ∧
    (rotateHalves 3 (bitsOf 0xF0CCAA0 28) (bitsOf 0xAACCF00 28)).value = some (bitsOf 0x0CCAA0F 28, bitsOf 0xACCF00A 28) := by
  decide +kernel

/-- 43_feistel.md R173: the S-box addresses and the output of round 1. -/
theorem test_substitution :
    ((cut (bitsOf 0x711732E15CF0 48) 6 8).value.map fun gs => gs.map sboxRow) = some [0, 1, 0, 2, 2, 1, 3, 2] ∧
    ((cut (bitsOf 0x711732E15CF0 48) 6 8).value.map fun gs => gs.map sboxCol) = some [14, 8, 14, 9, 12, 10, 9, 8] ∧
    (substitute (bitsOf 0x711732E15CF0 48)).value = bits 0x0C216D50 32 := by decide +kernel

/-- The source's known answer (44_engine.md R196; S6). -/
theorem test_process_known_answer :
    (process 0x0123456789ABCDEF#64 0x0123456789ABCDEF#64 .encipher).value = some 0x56CC09E7CFDC4CEF#64 := by decide +kernel

/-! ## One step of each command, from the state after reset unless said otherwise -/

/-- The command presented to an engine. -/
def presented (i : Instr) (s : State) : State := drive (.presenting i) [.quiet] s

/-- A field of the state after one step. -/
def after {α : Type} (s : State) (f : State → α) : Option α :=
  match step s with
  | .next t => some (f t)
  | _ => none

/-- 95_test_vectors.md 3.8, step 1. -/
theorem test_encipher_accept :
    after (presented (.encipher 0x0123456789ABCDEF#64 0x0123456789ABCDEF#64) .reset) (fun t => (t.st, t.l, t.r, t.i, t.op)) =
      some (.busy, 0xCC00CCFF#32, 0xF0AAF0AA#32, 1#5, 0b00#2) := by decide +kernel

/-- 95_test_vectors.md P5, step 5. -/
theorem test_decipher_accept :
    after (presented (.decipher 0x56CC09E7CFDC4CEF#64 0x0123456789ABCDEF#64) .reset) (fun t => (t.st, t.l, t.r, t.i, t.op)) =
      some (.busy, 0xFB21FB9C#32, 0xBA88F699#32, 1#5, 0b01#2) := by decide +kernel

/-- A process operation in progress. -/
def inProgress (op : BitVec 2) (l r : Half) (i : BitVec 5) : State :=
  { State.reset with st := .busy, op := op, key := 0x0123456789ABCDEF#64, l := l, r := r, i := i }

/-- 95_test_vectors.md 3.8, step 2. -/
theorem test_encipher_round :
    after (inProgress 0b00#2 0xCC00CCFF#32 0xF0AAF0AA#32 1#5) (fun t => (t.st, t.l, t.r, t.i)) =
      some (.busy, 0xF0AAF0AA#32, 0x5E1CEC63#32, 2#5) := by decide +kernel

/-- 95_test_vectors.md 2.4, round 1, which uses the subkey of round 16. -/
theorem test_decipher_round :
    after (inProgress 0b01#2 0xFB21FB9C#32 0xBA88F699#32 1#5) (fun t => (t.st, t.l, t.r, t.i)) =
      some (.busy, 0xBA88F699#32, 0xCC6C340E#32, 2#5) := by decide +kernel

/-- 95_test_vectors.md 3.8, step 18. -/
theorem test_final_step :
    after (inProgress 0b00#2 0xBA88F699#32 0xFB21FB9C#32 17#5) outputs =
      some { busy := false, done := true, err := 0#2, blockOut := some 0x56CC09E7CFDC4CEF#64, subkeyOut := none, halfOut := none } := by
  decide +kernel

/-- 95_test_vectors.md P2, command 1. -/
theorem test_keysched :
    after (presented (.keysched 0x0123456789ABCDEF#64 1#8) .reset) outputs =
      some { busy := false, done := true, err := 0#2, blockOut := none, subkeyOut := some 0x0B02679B49A5#48, halfOut := none } := by
  decide +kernel

/-- 95_test_vectors.md P3, command 2, after a result. -/
theorem test_keysched_invalid :
    after (presented (.keysched 0x0123456789ABCDEF#64 17#8) { State.reset with st := .done, blockOut := some 1#64 })
      (fun t => (t.st, outputs t)) =
      some (.fault, { busy := false, done := true, err := 1#2, blockOut := none, subkeyOut := none, halfOut := none }) := by
  decide +kernel

/-- 95_test_vectors.md P2, command 2, from FAULT. -/
theorem test_fround :
    after (presented (.fround 0xF0AAF0AA#32 0x0B02679B49A5#48) { State.reset with st := .fault, op := 0b10#2, err := 1#2 }) outputs =
      some { busy := false, done := true, err := 0#2, blockOut := none, subkeyOut := none, halfOut := some 0x921C209C#32 } := by
  decide +kernel

/-- 95_test_vectors.md P5, step 4: a reset in mid-operation. -/
theorem test_reset_while_busy :
    after (drive { rst := true, start := true, cmd := ports 0b01#2 } [] (inProgress 0b00#2 0x5E1CEC63#32 0x82E13C49#32 3#5)) outputs =
      some { busy := false, done := false, err := 0#2, blockOut := none, subkeyOut := none, halfOut := none } := by decide +kernel

/-- 95_test_vectors.md P5, step 3: a command presented while BUSY leaves no trace. -/
theorem test_presented_while_busy :
    after (presented (.keysched 0#64 0#8) (inProgress 0b00#2 0xF0AAF0AA#32 0x5E1CEC63#32 2#5)) (fun t => (t.l, t.r, t.i, t.op, t.key)) =
      some (0x5E1CEC63#32, 0x82E13C49#32, 3#5, 0b00#2, 0x0123456789ABCDEF#64) := by decide +kernel

/-- R33, R243: reading a result that is not there is a fault of the host. -/
theorem test_read_no_value : ¬ ∃ v, readResult .blockOut State.reset = .next v := by simp [readResult, State.reset]

/-- Each opcode-table word is accepted by the next step: all-zero operands give zero halves (R186), InvalidRound (R158), and
`0xD8D8DBBC` (43_feistel.md R170). -/
theorem test_with_fetch_word :
    after (State.reset.withFetchWord 8 0b00) (fun t => (t.st, t.op, t.l, t.r)) = some (.busy, 0b00#2, 0#32, 0#32) ∧
    after (State.reset.withFetchWord 8 0b01) (fun t => (t.st, t.op, t.l, t.r)) = some (.busy, 0b01#2, 0#32, 0#32) ∧
    after (State.reset.withFetchWord 8 0b10) (fun t => (t.st, t.err)) = some (.fault, 1#2) ∧
    after (State.reset.withFetchWord 8 0b11) (fun t => (t.st, t.halfOut)) = some (.done, some 0xD8D8DBBC#32) := by
  decide +kernel

/-- R94: a written command, 95_test_vectors.md P2 with one space before the arrow. -/
theorem test_line_text :
    lineText ⟨.fround (.lit 0xF0AAF0AA) (.ref "k1"), some "f1"⟩ = "FROUND    0xF0AAF0AA, k1 -> f1" := by
  decide +kernel

/-- The model's choice of log 15: a line whose command ended with an error binds nothing, and the earlier binding of its name goes;
one that ended without binds its result. -/
theorem test_bind_result :
    bindResult (some "k") (.keysched 0#64 17#8) { State.reset with st := .fault, op := 0b10#2, err := 1#2 }
      [("k", .subkey 1#48), ("c", .block 2#64)] = .next [("c", .block 2#64)] ∧
    bindResult (some "k") (.keysched 0#64 1#8) { State.reset with st := .done, op := 0b10#2, subkeyOut := some 3#48 } [] =
      .next [("k", .subkey 3#48)] := by
  exact ⟨bindResult_error _ _ _ _ (by decide), bindResult_ok _ _ _ _ _ rfl rfl⟩

/-- A failing named line does not end the program: 95_test_vectors.md P3, command 1, with a name. -/
theorem test_program_goes_on :
    (match runProgram [⟨.keysched (.lit 0x0123456789ABCDEF) (.lit 0), some "k"⟩] [] State.reset with
      | .next (os, t) => some (os, t.st)
      | _ => none) = some ([{ err := 1#2, blockOut := none, subkeyOut := none, halfOut := none }], .fault) := by decide +kernel

/-- 20_memory.md R55: first byte most significant. -/
theorem test_host_pack_bytes :
    hostPackBytes 0x01#8 0x23#8 0x45#8 0x67#8 0x89#8 0xAB#8 0xCD#8 0xEF#8 = 0x0123456789ABCDEF#64 := by decide

/-! ## Witnesses: the hypotheses of the obligations are met -/

/-- A busy state of the invariant: round `i` of an encipherment. -/
abbrev busyAt (i : BitVec 5) : State := inProgress 0b00#2 0xCC00CCFF#32 0xF0AAF0AA#32 i

/-- A state with a result. -/
abbrev doneState : State := { State.reset with st := .done, op := 0b10#2, subkeyOut := some 1#48 }

/-- A state after an error. -/
abbrev faultState : State := { State.reset with st := .fault, op := 0b10#2, err := 1#2 }

/-- A state with ENCIPHER of 1 under the key 2 on the ports, held. -/
abbrev holding : State := drive (.presenting (.encipher 1#64 2#64)) [] State.reset

theorem witness_IntToBitsGivesTheBitsOrRefuses : 255 < 2 ^ 8 ∧ 0 < 2 ^ 0 ∧ ¬ 256 < 2 ^ 8 ∧ 15 < 16 := by decide
theorem witness_BitConversionRoundTrips : 255 < 2 ^ 8 := by decide
theorem witness_XorAndAreElementwiseOrLengthMismatch :
    [true].length ≠ ([] : BitSeq).length ∧ [true, false].length = [false, false].length ∧ 1 < [true, false].length := by decide
theorem witness_RotateLeftRotatesOrShifts :
    let s : BitSeq := [true, false, true]
    0 ≤ s.length ∧ 3 ≤ s.length ∧ s.length < 4 ∧ 0 < s.length - 1 ∧ s.length - 1 ≤ 2 ∧ 2 < s.length := by decide
theorem witness_RotationsCompose :
    14 + 14 ≤ (bitsOf 1 28).length ∧ 0 ≤ 16 ∧ 16 ≤ 16 ∧ (bitsOf 1 28).length = 28 ∧ (bitsOf 2 28).length = 28 := by decide
theorem witness_TablesSelectAndAreLinear :
    tableE ∈ indexTables ∧ (bitsOf 1 32).length = tableE.inLen ∧ (bitsOf 2 32).length = tableE.inLen ∧
    (bitsOf 1 31).length ≠ tableE.inLen ∧ tableE.entries[0]? = some 32 ∧ tableE.entries[47]? = some 1 := by decide
theorem witness_FinalPermutationUndoesInitial : (bitsOf 1 64).length = 64 ∧ 0 < 64 ∧ 63 < 64 := by decide
theorem witness_IgnoredKeyBitsHaveNoEffect :
    (1 ≤ 1 ∧ 1 ≤ 64) ∧ (1 ≤ 64 ∧ 64 ≤ 64) ∧
    0x0123456789ABCDEF#64 &&& 0xFEFEFEFEFEFEFEFE#64 = 0x0022446688AACCEE#64 &&& 0xFEFEFEFEFEFEFEFE#64 := by decide
theorem witness_KeyScheduleFailsExactlyOnInvalidRounds :
    (0 = 0 ∨ 0 > 16) ∧ (17 = 0 ∨ 17 > 16) ∧ ¬ (1 = 0 ∨ 1 > 16) ∧ ¬ (16 = 0 ∨ 16 > 16) ∧ 1 ≤ 16 := by decide
theorem witness_KeyScheduleClosedForm : (1 ≤ 1 ∧ 1 ≤ 16) ∧ (1 ≤ 16 ∧ 16 ≤ 16) ∧ 27 < 28 := by decide
theorem witness_EverySubkeyBitIsOneKeyBit : (1 ≤ 1 ∧ 1 ≤ 16 ∧ 0 < 48) ∧ (1 ≤ 16 ∧ 16 ≤ 16 ∧ 47 < 48) := by decide
theorem witness_KeyScheduleIsLinear : (1 ≤ 1 ∧ 1 ≤ 16) ∧ (1 ≤ 16 ∧ 16 ≤ 16) := by decide
theorem witness_IncrementalKeyScheduleAgrees : (1 ≤ 1 ∧ 1 ≤ 16) ∧ (1 ≤ 16 ∧ 16 ≤ 16) ∧ (1 ≤ 1 ∧ 1 < 16) ∧ (1 ≤ 15 ∧ 15 < 16) := by
  decide
theorem witness_FeistelRoundFailsExactlyOnWrongWidths :
    ((bitsOf 0 31).length ≠ 32 ∨ (bitsOf 0 48).length ≠ 48) ∧ ((bitsOf 0 32).length ≠ 32 ∨ (bitsOf 0 49).length ≠ 48) ∧
    ((bitsOf 0 32).length = 32 ∧ (bitsOf 0 48).length = 48) := by decide
theorem witness_ExpansionGroups :
    (bitsOf 1 32).length = 32 ∧ tableE.entries[0]? = some 32 ∧ (0 < 8 ∧ 0 < 6) ∧ (7 < 8 ∧ 5 < 6) := by decide
theorem witness_EverySboxAddressIsDefined : (0 < 8 ∧ (bitsOf 0 6).length = 6) ∧ (7 < 8 ∧ (bitsOf 63 6).length = 6) := by decide
theorem witness_SubstitutionIsEightLookups : (bitsOf 1 48).length = 48 ∧ 0 < 8 ∧ 7 < 8 := by decide
/-- A computation that gives the value `v` is `.ok v`. -/
theorem ok_of_value {α : Type} {x : Res α} {v : α} (h : x.value = some v) : x = .ok v := by
  cases x with
  | ok a => simpa [Res.value] using h
  | error e => simp [Res.value] at h

/-- The pair has the same mixed sequence from different operands: 95_test_vectors.md 3.4, rows 2 and 3. -/
theorem witness_FeistelRoundDependsOnTheMixedSequence :
    (bitsOf 0xFFFFFFFF 32).length = 32 ∧ (bitsOf 0 48).length = 48 ∧ (bitsOf 0 32).length = 32 ∧
    (bitsOf 0xFFFFFFFFFFFF 48).length = 48 ∧
    permute (bitsOf 0xFFFFFFFF 32) tableE = .ok (bitsOf 0xFFFFFFFFFFFF 48) ∧ permute (bitsOf 0 32) tableE = .ok (bitsOf 0 48) ∧
    xorSeq (bitsOf 0xFFFFFFFFFFFF 48) (bitsOf 0 48) = xorSeq (bitsOf 0 48) (bitsOf 0xFFFFFFFFFFFF 48) := by
  refine ⟨by decide, by decide, by decide, by decide, ok_of_value (by decide +kernel), ok_of_value (by decide +kernel), ?_⟩
  exact (ok_of_value (v := bitsOf 0xFFFFFFFFFFFF 48) (by decide +kernel)).trans (ok_of_value (by decide +kernel)).symm
/-- The known answer (S6). -/
theorem witness_ProcessRoundTrips :
    process 0x0123456789ABCDEF#64 0x0123456789ABCDEF#64 .encipher = .ok 0x56CC09E7CFDC4CEF#64 :=
  ok_of_value test_process_known_answer
theorem witness_ProcessComplementation :
    process 0x0123456789ABCDEF#64 0x0123456789ABCDEF#64 .encipher = .ok 0x56CC09E7CFDC4CEF#64 :=
  ok_of_value test_process_known_answer
/-- 44_engine.md R194 (c), 42_key_schedule.md R156 (c): the key 0 has sixteen equal subkeys. -/
theorem witness_EqualSubkeysMakeTheModesCoincide :
    ∀ r, 1 ≤ r → r ≤ 16 → keySchedule 0#64 r = keySchedule 0#64 1 := by
  have h : ∀ r < 16, (keySchedule 0#64 (r + 1)).value = some (List.replicate 48 false) := by decide +kernel
  intro r h1 h2
  obtain ⟨r, rfl⟩ : ∃ k, r = k + 1 := ⟨r - 1, by omega⟩
  exact (ok_of_value (h r (by omega))).trans (ok_of_value (h 0 (by decide))).symm
theorem witness_DecodeAndEncodeAgree : decode (ports 0b10#2) = .keysched 0x133457799BBCDFF1#64 17#8 := by decide
theorem witness_UnreadPortsHaveNoEffect :
    ∃ t1, react { State.reset with pins := ⟨false, true, encodeOnto (.keysched 0#64 0#8) (ports 0b00#2)⟩ } = .next t1 :=
  ⟨_, rfl⟩
theorem witness_EffectiveRoundStaysInRange : (1 ≤ 1 ∧ 1 ≤ 16) ∧ (1 ≤ 16 ∧ 16 ≤ 16) := by decide
theorem witness_ReadyStates : Ready State.reset ∧ Ready doneState ∧ Ready faultState := by decide
theorem witness_ProcessCommandsAreAccepted : Ready faultState := by decide
/-- Boundary rounds of both clauses; a next state exists from every ready state. -/
theorem witness_KeyschedGivesTheSubkeyOrInvalidRound :
    Ready State.reset ∧ (1 ≤ (1#8).toNat ∧ (1#8).toNat ≤ 16) ∧ (1 ≤ (16#8).toNat ∧ (16#8).toNat ≤ 16) ∧
    ((0#8).toNat = 0 ∨ 16 < (0#8).toNat) ∧ ((17#8).toNat = 0 ∨ 16 < (17#8).toNat) ∧ ((255#8).toNat = 0 ∨ 16 < (255#8).toNat) ∧
    after (presented (.keysched 5#64 255#8) State.reset) (fun t => (busy t, done t)) = some (false, true) := by decide +kernel
theorem witness_FroundGivesTheRoundFunction : Ready doneState := by decide
theorem witness_AcceptDoesNotDependOnAnEarlierError : Ready faultState := by decide
theorem witness_ErrorsArePreciseAndLeaveNoResult : Ready doneState := by decide
theorem witness_RoundStepIsOneIteration :
    ((busyAt 1).pins.rst = false ∧ (busyAt 1).st = .busy ∧ 1 ≤ (busyAt 1).i.toNat ∧ (busyAt 1).i.toNat ≤ 16) ∧
    ((busyAt 16).pins.rst = false ∧ (busyAt 16).st = .busy ∧ 1 ≤ (busyAt 16).i.toNat ∧ (busyAt 16).i.toNat ≤ 16) := by decide
theorem witness_FinalStepWritesTheResult :
    (busyAt 17).pins.rst = false ∧ (busyAt 17).st = .busy ∧ (busyAt 17).i.toNat = 17 := by decide
/-- A state of the invariant in each of the four sequencer states. -/
theorem witness_InvariantStates :
    StateInv State.reset ∧ StateInv (busyAt 1) ∧ StateInv (busyAt 17) ∧ StateInv doneState ∧ StateInv faultState := by
  and_intros <;> decide
/-- One state for each row of the step relation. -/
theorem witness_StepRelation :
    (StateInv (busyAt 3) ∧ (drive { Inputs.quiet with rst := true } [] (busyAt 3)).pins.rst = true) ∧
    (StateInv doneState ∧ doneState.pins.rst = false ∧ Ready doneState ∧ doneState.pins.start = false) ∧
    (∀ op : BitVec 2, let s := drive ⟨false, true, ports op⟩ [] faultState
      StateInv s ∧ s.pins.rst = false ∧ Ready s ∧ s.pins.start = true ∧ s.pins.cmd.op = op) ∧
    (∀ r : BitVec 8, (presented (.keysched 0#64 r) State.reset).pins.cmd.roundIn = r) ∧
    (StateInv (busyAt 16) ∧ (busyAt 16).pins.rst = false ∧ (busyAt 16).st = .busy ∧ (busyAt 16).i.toNat ≤ 16) ∧
    (StateInv (busyAt 17) ∧ (busyAt 17).pins.rst = false ∧ (busyAt 17).st = .busy ∧ (busyAt 17).i.toNat = 17) := by
  refine ⟨by decide, by decide, by decide, fun _ => rfl, by decide, by decide⟩
theorem witness_StepRunsTheDecodedCommand :
    (presented (.fround 1#32 2#48) State.reset).pins =
      { rst := false, start := true, cmd := encodeOnto (.fround 1#32 2#48) CommandPorts.zero } := by decide
theorem witness_CommandWhileBusyIsIgnored :
    (busyAt 5).st = .busy ∧ (Inputs.presenting (.keysched 0#64 0#8)).rst = false ∧
    (after { busyAt 17 with pins := .quiet } fun t => t.st) = some .done := by decide +kernel
theorem witness_ResetFromAnyState :
    let s := drive { Inputs.quiet with rst := true } [{ Inputs.quiet with rst := true, start := true }, .quiet] (busyAt 5)
    s.pins.rst = true ∧ ∀ p ∈ s.later.take 1, p.rst = true := by decide
theorem witness_EveryStepKeepsTheInvariant :
    StateInv (busyAt 17) ∧ (after (busyAt 17) fun t => t.st) = some .done := by
  constructor
  · decide
  · decide +kernel
theorem witness_NoStepStopsOrReportsLengthMismatch : StateInv (busyAt 1) := by decide
theorem witness_StatusFlagsAreConsistent : StateInv faultState := by decide
theorem witness_BusyBeyondTheLoopStops :
    ((busyAt 18).pins.rst = false ∧ (busyAt 18).st = .busy ∧ 17 < (busyAt 18).i.toNat) ∧
    ((busyAt 31).pins.rst = false ∧ (busyAt 31).st = .busy ∧ 17 < (busyAt 31).i.toNat) := by decide
/-- A step that writes each result register, an accept, a quiet step, a busy step and a reset: the clauses of the two whole-step
statements. -/
theorem witness_ResultRegistersHaveOneWriter :
    (after (busyAt 17) fun t => t.blockOut.isSome) = some true ∧
    (after (presented (.keysched 0#64 1#8) doneState) fun t => t.subkeyOut.isSome) = some true ∧
    (after (presented (.fround 0#32 0#48) faultState) fun t => t.halfOut.isSome) = some true ∧
    (after doneState fun t => t.subkeyOut.isSome) = some true ∧
    (after (busyAt 1) fun t => t.blockOut.isSome) = some false ∧
    (after (drive { Inputs.quiet with rst := true } [] doneState) fun t => t.subkeyOut.isSome) = some false := by decide +kernel
theorem witness_KeyAndOpAreWrittenOnlyAtAccept :
    (after (presented (.decipher 0#64 7#64) doneState) fun t => (t.key, t.op)) = some (7#64, 0b01#2) ∧
    (presented (.decipher 0#64 7#64) doneState).pins.rst = false := by decide +kernel
/-- A state of the invariant whose result can be read, and one where it cannot. -/
theorem witness_ResultsAreReadableExactlyWhenValid :
    (StateInv doneState ∧ done doneState = true ∧ doneState.err = 0#2 ∧
      resultPort (decode { CommandPorts.zero with op := doneState.op }) = .subkeyOut) ∧
    (StateInv faultState ∧ ¬ (∃ v, readResult .subkeyOut faultState = .next v)) := by
  refine ⟨by decide, by decide, ?_⟩
  simp [readResult, State.reset]
theorem witness_EighteenStepsRefineProcess :
    Ready holding ∧ NoResetFor 17 holding ∧ holding.pins.start = true ∧
    decode holding.pins.cmd = processInstr 1#64 2#64 .encipher ∧ (1 ≤ 1 ∧ 1 ≤ 17) ∧ (1 ≤ 17 ∧ 17 ≤ 17) := by decide
theorem witness_RoundStepsFollowTheLoop :
    Ready holding ∧ NoResetFor 17 holding ∧ holding.pins.start = true ∧
    decode holding.pins.cmd = processInstr 1#64 2#64 .encipher ∧ 0 ≤ 16 ∧ 16 ≤ 16 := by decide
theorem witness_EveryOperationEndsWithTheFunctionLevelOutcome :
    (Ready faultState ∨ StateInv faultState) ∧ (Ready (busyAt 3) ∨ StateInv (busyAt 3)) :=
  ⟨.inl (by decide), .inr (by decide)⟩
theorem witness_OutcomeDependsOnlyOnTheCommand :
    (Ready doneState ∨ StateInv doneState) ∧ (Ready (busyAt 17) ∨ StateInv (busyAt 17)) :=
  ⟨.inr (by decide), .inr (by decide)⟩
theorem witness_OperationInProgressIgnoresTheOperandPorts :
    let s := busyAt 1
    StateInv s ∧ s.st = .busy ∧ NoResetFor 16 (drive .quiet [] s) ∧
      NoResetFor 16 (drive (.presenting (.keysched 0#64 0#8)) [.presenting (.decipher 1#64 1#64)] s) ∧
      17 + s.i.toNat ≤ 18 ∧ 0 + s.i.toNat ≤ 18 := by decide
theorem witness_HeldStartRepeatsTheOperation :
    Ready holding ∧ holding.pins.rst = false ∧ holding.later = [] ∧ holding.pins.start = true ∧
    decode holding.pins.cmd = processInstr 1#64 2#64 .encipher ∧ (19 ≤ 19 ∧ 19 ≤ 35) ∧ (19 ≤ 35 ∧ 35 ≤ 35) := by decide
theorem witness_BusyEngineFinishes :
    (StateInv (busyAt 1) ∧ (busyAt 1).st = .busy ∧ NoResetFor 16 (busyAt 1)) ∧
    (StateInv (busyAt 17) ∧ (busyAt 17).st = .busy ∧ NoResetFor 16 (busyAt 17)) := by
  and_intros <;> decide

end Sys2Proof.Tests
end

/-! PROOFS. One operation as the host issues it (70_reset_and_hazards.md R249; 30_encoding.md R95), refined by the function level
(00_scope.md R19). A busy engine finishes the loop of `process` and is ready again; on a ready engine each command ends with the
outcome of its function. -/

namespace Sys2Proof.Machine

/-! ## Presenting a command -/

/-- A command put on the ports is decoded to itself, whatever the ports it does not read carry (30_encoding.md R84, R92). -/
@[simp] theorem decode_encodeOnto (i : Instr) (c : CommandPorts) : decode (encodeOnto i c) = i := by
  cases i <;> simp [decode, encodeOnto, modeOf, Config.opEncipher, Config.opDecipher, Config.opKeysched, Config.opFround]

/-- A ready engine is not waited for. -/
theorem issue_of_ready (i : Instr) {s : State} (h : Ready s) :
    issue i s = onNext (step (drive (.presenting i) [.quiet] s)) (waitDone 17) := by
  simp [issue, busy, h]

/-- A busy engine is first waited for with quiet ports. -/
theorem issue_of_busy (i : Instr) {s u : State} (h : s.st = .busy) (hw : waitDone 17 (drive .quiet [] s) = .next u) :
    issue i s = onNext (step (drive (.presenting i) [.quiet] u)) (waitDone 17) := by
  simp [issue, busy, h, hw]

/-- After the accept step the host waits with quiet ports. -/
theorem issue_of_exec {i : Instr} {s t : State} (h : Ready s) (he : exec i (drive (.presenting i) [.quiet] s) = .next t)
    (hq : t.later = [.quiet]) : issue i s = waitDone 17 (drive .quiet [] t) := by
  have hr : react (drive (.presenting i) [.quiet] s) = .next t := by
    rw [react_presented _ rfl rfl, drive_pins, Inputs.presenting, encode, decode_encodeOnto]
    exact he
  have hp : nextPins t = drive .quiet [] t := by simp [nextPins, hq, drive]
  rw [issue_of_ready i h, step_of_react hr, onNext_next, hp]

/-- With `done = 1` the wait is over. -/
theorem waitDone_of_done (n : Nat) {s : State} (h : done s = true) : waitDone n s = .next s := by
  cases n <;> simp [waitDone, h]

/-- With `done = 0` the wait goes on after one step. -/
theorem waitDone_succ_of_busy (n : Nat) {s t : State} (h : s.st = .busy) (hs : step s = .next t) :
    waitDone (n + 1) s = waitDone n t := by
  simp [waitDone, done, h, hs]

/-- What the host observes is not what it drives. -/
@[simp] theorem outcome_drive (p : Inputs) (q : List Inputs) (s : State) : outcome (drive p q s) = outcome s := rfl

/-! ## The loop of a process command -/

/-- A round step of a busy engine that is not reset (44_engine.md R187, R189). -/
theorem step_round {s : State} (hb : s.st = .busy) (hr : s.pins.rst = false) (h1 : 1 ≤ s.i.toNat) (h16 : s.i.toNat ≤ 16) :
    ∃ r, roundBody s.key (effectiveRound (modeOf s.op) s.i.toNat) (toSeq s.l) (toSeq s.r) = .ok (toSeq s.r, toSeq r) ∧
      step s = .next (nextPins { s with l := s.r, r := r, i := s.i + 1#5 }) := by
  obtain ⟨r, hbody, hround⟩ := roundStep_next s h1 h16
  exact ⟨r, hbody, step_of_react (by rw [react_busy s hr hb, advance_round s h16, hround])⟩

/-- The final step of a busy engine that is not reset (R188, R189). -/
theorem step_final {s : State} (hb : s.st = .busy) (hr : s.pins.rst = false) (h17 : s.i.toNat = 17) :
    ∃ v, finalBlock (toSeq s.l) (toSeq s.r) = .ok v ∧
      step s = .next (nextPins { s with blockOut := some v, st := .done }) := by
  obtain ⟨v, hv, hfinal⟩ := finalStep_next s
  exact ⟨v, hv, step_of_react (by rw [react_busy s hr hb, advance_final s h17, hfinal])⟩

/-- `v` is what `process` gives from the point of its loop where a busy `s` is: for every start of the loop whose first `I - 1`
iterations lead to `L` and `R`, the whole loop and steps 4 to 6 of R181 give `v`. -/
def LoopYields (s : State) (v : Block) : Prop :=
  ∀ l0 r0, rounds s.key (modeOf s.op) (s.i.toNat - 1) l0 r0 = .ok (toSeq s.l, toSeq s.r) →
    ∃ l r, rounds s.key (modeOf s.op) Config.rounds l0 r0 = .ok (l, r) ∧ finalBlock l r = .ok v

/-- At the end of the loop only steps 4 to 6 of R181 are left. -/
theorem loopYields_final {s : State} {v : Block} (h17 : s.i.toNat = 17) (hv : finalBlock (toSeq s.l) (toSeq s.r) = .ok v) :
    LoopYields s v := by
  intro l0 r0 h
  rw [h17] at h
  exact ⟨_, _, h, hv⟩

/-- A round step does not change what the loop yields. -/
theorem loopYields_round {s : State} {r : Half} {v : Block} (h1 : 1 ≤ s.i.toNat) (h16 : s.i.toNat ≤ 16)
    (hbody : roundBody s.key (effectiveRound (modeOf s.op) s.i.toNat) (toSeq s.l) (toSeq s.r) = .ok (toSeq s.r, toSeq r))
    (h : LoopYields { s with l := s.r, r := r, i := s.i + 1#5 } v) : LoopYields s v := by
  intro l0 r0 hloop
  refine h l0 r0 ?_
  obtain ⟨m, hm⟩ : ∃ m, s.i.toNat = m + 1 := ⟨s.i.toNat - 1, by omega⟩
  rw [hm] at hbody hloop
  simp only [i_succ_toNat s h16, hm, Nat.add_sub_cancel, rounds] at hloop ⊢
  simp [hloop, hbody, bind, Except.bind]

/-- At the start of the loop `process` yields what the loop does (R181). -/
theorem process_of_loopYields {s : State} {block v : Block} (hi : s.i.toNat = 1)
    (hinit : initialHalves block = .ok (toSeq s.l, toSeq s.r)) (h : LoopYields s v) :
    process block s.key (modeOf s.op) = .ok v := by
  obtain ⟨l, r, hl, hv⟩ := h _ _ (by rw [hi]; rfl)
  simp [process, hinit, hl, hv, bind, Except.bind]

/-- A busy engine that the host leaves alone is done within `18 - I` steps, with the block its loop yields and nothing else
observable changed (R189, R190). -/
theorem waitDone_of_busy (n : Nat) {s : State} (hb : s.st = .busy) (hr : s.pins.rst = false) (hq : s.later = [])
    (h1 : 1 ≤ s.i.toNat) (h17 : s.i.toNat ≤ 17) (hn : 18 ≤ s.i.toNat + n) :
    ∃ t v, waitDone n s = .next t ∧ t.st = .done ∧ outcome t = { outcome s with blockOut := some v } ∧ LoopYields s v := by
  induction n generalizing s with
  | zero => omega
  | succ n ih =>
    obtain h16 | hlast : s.i.toNat ≤ 16 ∨ s.i.toNat = 17 := by omega
    · obtain ⟨r, hbody, hstep⟩ := step_round hb hr h1 h16
      have hi := i_succ_toNat s h16
      obtain ⟨t, v, hw, hd, ho, hv⟩ := ih (s := { s with l := s.r, r := r, i := s.i + 1#5 }) hb hr hq
        (by rw [hi]; omega) (by rw [hi]; omega) (by rw [hi]; omega)
      refine ⟨t, v, ?_, hd, ho, loopYields_round h1 h16 hbody hv⟩
      rw [waitDone_succ_of_busy n hb hstep, nextPins_of_later_nil, hw]
      exact hq
    · obtain ⟨v, hv, hstep⟩ := step_final hb hr hlast
      refine ⟨{ s with blockOut := some v, st := .done }, v, ?_, rfl, rfl, loopYields_final hlast hv⟩
      rw [waitDone_succ_of_busy n hb hstep, nextPins_of_later_nil, waitDone_of_done]
      · simp [done]
      · exact hq

/-- An operation issued to a reachable busy engine is the operation issued to the ready engine that the running one leaves. -/
theorem issue_busy_eq_issue_ready (i : Instr) {s : State} (hinv : StateInv s) (hb : s.st = .busy) :
    ∃ u, Ready u ∧ issue i s = issue i u := by
  obtain ⟨hbusy, -, -, -⟩ := hinv
  obtain ⟨-, h1, h17, -, -⟩ := hbusy hb
  obtain ⟨u, -, hw, hd, -, -⟩ := waitDone_of_busy 17 (s := drive .quiet [] s) hb rfl rfl h1 h17
    (by rw [drive_i]; omega)
  have hu : Ready u := by simp [Ready, hd]
  exact ⟨u, hu, by rw [issue_of_busy i hb hw, issue_of_ready i hu]⟩

/-! ## The commands on a ready engine -/

/-- The accept step of a process command puts the engine at the start of the loop of `process` (R186). -/
theorem acceptProcess_starts_loop (op : BitVec 2) (block : Block) (key : Key) (s : State) :
    ∃ u, acceptProcess op block key s = .next u ∧ u.st = .busy ∧ u.op = op ∧ u.key = key ∧ u.i = 1#5 ∧
      initialHalves block = .ok (toSeq u.l, toSeq u.r) ∧ outcome u = outcome (beginAccept op s) ∧ u.later = s.later := by
  obtain ⟨p, l, r, hp, hl, hr, hacc⟩ := acceptProcess_next op block key s
  obtain ⟨p', hp', -, hinit⟩ := initialHalves_ok block
  obtain rfl : p = p' := Except.ok.inj (hp.symm.trans hp')
  exact ⟨_, hacc, rfl, rfl, rfl, rfl, by rw [hinit, hl, hr], rfl, rfl⟩

/-- A process command presented to a ready engine is accepted with an opcode that carries its mode (30_encoding.md R83). -/
theorem exec_processInstr (block : Block) (key : Key) (mode : Mode) {s : State} (h : Ready s) :
    ∃ op, modeOf op = mode ∧ exec (processInstr block key mode) s = acceptProcess op block key s := by
  cases mode with
  | encipher => exact ⟨Config.opEncipher, by simp [modeOf, Config.opEncipher], present_ready _ s h⟩
  | decipher => exact ⟨Config.opDecipher, by simp [modeOf, Config.opDecipher], present_ready _ s h⟩

/-- The function-level meaning of a process command is the value of `process` (R182, R183). -/
theorem functionLevel_processInstr {block v : Block} {key : Key} {mode : Mode} (h : process block key mode = .ok v) :
    functionLevel (processInstr block key mode) = .ok (.block v) := by
  cases mode <;> simp [processInstr, functionLevel, h, bind, Except.bind, pure, Except.pure]

/-- A process command issued to a ready engine ends with the outcome of `process` (R190). -/
theorem issue_processInstr (block : Block) (key : Key) (mode : Mode) {s : State} (h : Ready s) :
    ∃ t, issue (processInstr block key mode) s = .next t ∧ done t = true ∧
      outcomeOf (functionLevel (processInstr block key mode)) = some (outcome t) := by
  obtain ⟨op, hmode, hexec⟩ := exec_processInstr block key mode
    (s := drive (.presenting (processInstr block key mode)) [.quiet] s) h
  obtain ⟨u, hacc, hb, hop, hkey, hi, hinit, hu, hq⟩ := acceptProcess_starts_loop op block key
    (drive (.presenting (processInstr block key mode)) [.quiet] s)
  have hissue := issue_of_exec h (hexec.trans hacc) hq
  obtain ⟨t, v, hw, hd, ho, hv⟩ := waitDone_of_busy 17 (s := drive .quiet [] u) hb rfl rfl
    (by simp [hi]) (by simp [hi]) (by simp [hi])
  have hp := process_of_loopYields (s := drive .quiet [] u) (by simp [hi]) hinit hv
  rw [drive_key, drive_op, hkey, hop, hmode] at hp
  refine ⟨t, by rw [hissue, hw], by simp [done, hd], ?_⟩
  rw [functionLevel_processInstr hp, ho, outcome_drive, hu]
  rfl

/-- A command whose accept step is its whole operation ends with what that step leaves (R158, R172). -/
theorem issue_of_exec_done {i : Instr} {s t : State} (h : Ready s) (he : exec i (drive (.presenting i) [.quiet] s) = .next t)
    (hq : t.later = [.quiet]) (hd : done t = true) : issue i s = .next (drive .quiet [] t) := by
  rw [issue_of_exec h he hq, waitDone_of_done 17 (s := drive .quiet [] t) hd]

/-- A round number outside 1..16 is InvalidRound (42_key_schedule.md R151). -/
theorem keySchedule_invalidRound (key : Key) {r : Nat} (h : r = 0 ∨ 16 < r) : keySchedule key r = .error .invalidRound :=
  if_pos h

/-- The function-level meaning of KEYSCHED where `KeySchedule` gives a subkey (R158). -/
theorem functionLevel_keysched {key : Key} {round : BitVec 8} {v : Subkey} (h : keySchedule key round.toNat = .ok (toSeq v)) :
    functionLevel (.keysched key round) = .ok (.subkey v) := by
  simp [functionLevel, h, pack_toSeq, bind, Except.bind, pure, Except.pure]

/-- The function-level meaning of KEYSCHED where `KeySchedule` fails (R158). -/
theorem functionLevel_keysched_error {key : Key} {round : BitVec 8} {e : Abort} (h : keySchedule key round.toNat = .error e) :
    functionLevel (.keysched key round) = .error e := by
  simp [functionLevel, h, bind, Except.bind]

/-- The function-level meaning of FROUND (R172). -/
theorem functionLevel_fround {half v : Half} {subkey : Subkey} (h : feistelRound (toSeq half) (toSeq subkey) = .ok (toSeq v)) :
    functionLevel (.fround half subkey) = .ok (.half v) := by
  simp [functionLevel, h, pack_toSeq, bind, Except.bind, pure, Except.pure]

/-- KEYSCHED issued to a ready engine ends with the subkey, or with InvalidRound and no result (R158). -/
theorem issue_keysched (key : Key) (round : BitVec 8) {s : State} (h : Ready s) :
    ∃ t, issue (.keysched key round) s = .next t ∧ done t = true ∧
      outcomeOf (functionLevel (.keysched key round)) = some (outcome t) := by
  have hexec := present_ready (acceptKeysched key round) (drive (.presenting (.keysched key round)) [.quiet] s) h
  obtain ⟨h1, h16⟩ | hbad : (1 ≤ round.toNat ∧ round.toNat ≤ 16) ∨ (round.toNat = 0 ∨ 16 < round.toNat) := by omega
  · obtain ⟨_, v, hk, rfl, hacc⟩ := acceptKeysched_valid key round _ h1 h16
    exact ⟨_, issue_of_exec_done h (hexec.trans hacc) rfl rfl, rfl, by rw [functionLevel_keysched hk]; rfl⟩
  · have hk := keySchedule_invalidRound key hbad
    have hacc := acceptKeysched_invalid key round (drive (.presenting (.keysched key round)) [.quiet] s) hbad
    exact ⟨_, issue_of_exec_done h (hexec.trans hacc) rfl rfl, rfl, by rw [functionLevel_keysched_error hk]; rfl⟩

/-- FROUND issued to a ready engine ends with the value of `FeistelRound` (R172). -/
theorem issue_fround (half : Half) (subkey : Subkey) {s : State} (h : Ready s) :
    ∃ t, issue (.fround half subkey) s = .next t ∧ done t = true ∧
      outcomeOf (functionLevel (.fround half subkey)) = some (outcome t) := by
  have hexec := present_ready (acceptFround half subkey) (drive (.presenting (.fround half subkey)) [.quiet] s) h
  obtain ⟨_, v, hf, rfl, hacc⟩ := acceptFround_next half subkey _
  exact ⟨_, issue_of_exec_done h (hexec.trans hacc) rfl rfl, rfl, by rw [functionLevel_fround hf]; rfl⟩

/-- Every command issued to a ready engine ends with the outcome of its function (R19). -/
theorem issue_ready (i : Instr) {s : State} (h : Ready s) :
    ∃ t, issue i s = .next t ∧ done t = true ∧ outcomeOf (functionLevel i) = some (outcome t) := by
  cases i with
  | encipher block key => exact issue_processInstr block key .encipher h
  | decipher block key => exact issue_processInstr block key .decipher h
  | keysched key round => exact issue_keysched key round h
  | fround half subkey => exact issue_fround half subkey h

/-- Settles O51: a busy engine becomes ready first, and a ready one ends with the outcome of the command's function. -/
theorem everyOperationEndsWithTheFunctionLevelOutcome : Obligations.EveryOperationEndsWithTheFunctionLevelOutcome := by
  unfold Obligations.EveryOperationEndsWithTheFunctionLevelOutcome
  intro i s hs
  by_cases hb : s.st = .busy
  · obtain ⟨u, hu, hissue⟩ := issue_busy_eq_issue_ready i (hs.resolve_left (not_not.2 hb)) hb
    rw [hissue]
    exact issue_ready i hu
  · exact issue_ready i hb

end Sys2Proof.Machine

/-! PROOFS. What one step of the engine can do, as the rows of the step relation (44_engine.md R189), and the rules on the state that
follow: the invariant of the reachable states (10_state.md R38), and who writes the result registers, `KEY` and `OP` (R24, R25, R31). -/

namespace Sys2Proof.Machine

/-! ## The opcode on the ports -/

/-- The opcode map has no other row (30_encoding.md R82, R84). -/
theorem opcode_cases (op : BitVec 2) :
    op = Config.opEncipher ∨ op = Config.opDecipher ∨ op = Config.opKeysched ∨ op = Config.opFround := by
  revert op
  decide

theorem decode_of_opEncipher {c : CommandPorts} (h : c.op = Config.opEncipher) : decode c = .encipher c.blockIn c.keyIn := by
  simp [decode, modeOf, h, Config.opEncipher]

theorem decode_of_opDecipher {c : CommandPorts} (h : c.op = Config.opDecipher) : decode c = .decipher c.blockIn c.keyIn := by
  simp [decode, modeOf, h, Config.opDecipher]

theorem decode_of_opKeysched {c : CommandPorts} (h : c.op = Config.opKeysched) : decode c = .keysched c.keyIn c.roundIn := by
  simp [decode, h, Config.opKeysched]

theorem decode_of_opFround {c : CommandPorts} (h : c.op = Config.opFround) : decode c = .fround c.halfIn c.subkeyIn := by
  simp [decode, h, Config.opFround]

/-! ## The rows of the step relation -/

/-- What the accept of the command on the ports can leave (R186, R158, R172). -/
inductive AcceptStep (s : State) : State → Prop where
  /-- The accept of a process command. -/
  | process (hop : s.pins.cmd.op.getLsbD 1 = false) (l r : Half)
      (hinit : initialHalves s.pins.cmd.blockIn = .ok (toSeq l, toSeq r)) :
      AcceptStep s { beginAccept s.pins.cmd.op s with key := s.pins.cmd.keyIn, l := l, r := r, i := 1#5, st := .busy }
  /-- The accept of KEYSCHED with a valid round. -/
  | keysched (hop : s.pins.cmd.op = Config.opKeysched) (h1 : 1 ≤ s.pins.cmd.roundIn.toNat)
      (h16 : s.pins.cmd.roundIn.toNat ≤ 16) (v : Subkey)
      (hkey : keySchedule s.pins.cmd.keyIn s.pins.cmd.roundIn.toNat = .ok (toSeq v)) :
      AcceptStep s { beginAccept Config.opKeysched s with subkeyOut := some v, st := .done }
  /-- The accept of KEYSCHED with an invalid round, which reports the error. -/
  | invalidRound (hop : s.pins.cmd.op = Config.opKeysched)
      (hround : s.pins.cmd.roundIn.toNat = 0 ∨ 16 < s.pins.cmd.roundIn.toNat) :
      AcceptStep s (reportError Config.errInvalidRound (beginAccept Config.opKeysched s))
  /-- The accept of FROUND. -/
  | fround (hop : s.pins.cmd.op = Config.opFround) (v : Half)
      (hround : feistelRound (toSeq s.pins.cmd.halfIn) (toSeq s.pins.cmd.subkeyIn) = .ok (toSeq v)) :
      AcceptStep s { beginAccept Config.opFround s with halfOut := some v, st := .done }

/-- What a step of the operation in progress can leave (R187, R188). -/
inductive BusyStep (s : State) : State → Prop where
  /-- The round step. -/
  | round (h1 : 1 ≤ s.i.toNat) (h16 : s.i.toNat ≤ 16) (r : Half)
      (hbody : roundBody s.key (effectiveRound (modeOf s.op) s.i.toNat) (toSeq s.l) (toSeq s.r) = .ok (toSeq s.r, toSeq r)) :
      BusyStep s { s with l := s.r, r := r, i := s.i + 1#5 }
  /-- The final step. -/
  | final (h17 : s.i.toNat = 17) (v : Block) (hout : finalBlock (toSeq s.l) (toSeq s.r) = .ok v) :
      BusyStep s { s with blockOut := some v, st := .done }
  /-- With `I = 0`, which no run reaches, the round step reports InvalidRound (log 8). -/
  | roundZero (h0 : s.i.toNat = 0) : BusyStep s (reportError Config.errInvalidRound s)

/-- What one reaction of the engine can leave (R189). -/
inductive ReactStep (s : State) : State → Prop where
  | reset (hr : s.pins.rst = true) : ReactStep s (resetStep s)
  | quiet (hr : s.pins.rst = false) (hrdy : Ready s) (hs : s.pins.start = false) : ReactStep s s
  | accept {t : State} (hr : s.pins.rst = false) (hrdy : Ready s) (hs : s.pins.start = true) (ht : AcceptStep s t) :
      ReactStep s t
  | busy {t : State} (hr : s.pins.rst = false) (hb : s.st = .busy) (ht : BusyStep s t) : ReactStep s t

/-- The accept of a process command is the row of R186. -/
theorem acceptStep_of_acceptProcess {s t : State} (hop : s.pins.cmd.op.getLsbD 1 = false)
    (h : acceptProcess s.pins.cmd.op s.pins.cmd.blockIn s.pins.cmd.keyIn s = .next t) : AcceptStep s t := by
  obtain ⟨p, l, r, hp, hl, hr, hacc⟩ := acceptProcess_next s.pins.cmd.op s.pins.cmd.blockIn s.pins.cmd.keyIn s
  obtain ⟨p', hp', -, hinit⟩ := initialHalves_ok s.pins.cmd.blockIn
  obtain rfl : p = p' := Except.ok.inj (hp.symm.trans hp')
  obtain rfl := Host.Outcome.next.inj (hacc.symm.trans h)
  exact .process hop l r (by rw [hinit, hl, hr])

/-- The accept of KEYSCHED is one of the two rows of R158. -/
theorem acceptStep_of_acceptKeysched {s t : State} (hop : s.pins.cmd.op = Config.opKeysched)
    (h : acceptKeysched s.pins.cmd.keyIn s.pins.cmd.roundIn s = .next t) : AcceptStep s t := by
  obtain ⟨h1, h16⟩ | hbad : (1 ≤ s.pins.cmd.roundIn.toNat ∧ s.pins.cmd.roundIn.toNat ≤ 16) ∨
      (s.pins.cmd.roundIn.toNat = 0 ∨ 16 < s.pins.cmd.roundIn.toNat) := by omega
  · obtain ⟨_, v, hk, rfl, hacc⟩ := acceptKeysched_valid s.pins.cmd.keyIn s.pins.cmd.roundIn s h1 h16
    obtain rfl := Host.Outcome.next.inj (hacc.symm.trans h)
    exact .keysched hop h1 h16 v hk
  · obtain rfl := Host.Outcome.next.inj ((acceptKeysched_invalid _ _ s hbad).symm.trans h)
    exact .invalidRound hop hbad

/-- The accept of FROUND is the row of R172. -/
theorem acceptStep_of_acceptFround {s t : State} (hop : s.pins.cmd.op = Config.opFround)
    (h : acceptFround s.pins.cmd.halfIn s.pins.cmd.subkeyIn s = .next t) : AcceptStep s t := by
  obtain ⟨_, v, hf, rfl, hacc⟩ := acceptFround_next s.pins.cmd.halfIn s.pins.cmd.subkeyIn s
  obtain rfl := Host.Outcome.next.inj (hacc.symm.trans h)
  exact .fround hop v hf

/-- A command presented to a ready engine is accepted as its opcode says (R84, R28). -/
theorem acceptStep_of_exec {s t : State} (hrdy : Ready s) (h : exec (decode s.pins.cmd) s = .next t) : AcceptStep s t := by
  obtain hop | hop | hop | hop := opcode_cases s.pins.cmd.op
  · rw [decode_of_opEncipher hop] at h
    refine acceptStep_of_acceptProcess (by simp [hop, Config.opEncipher]) ?_
    rw [hop]
    exact (present_ready _ s hrdy).symm.trans h
  · rw [decode_of_opDecipher hop] at h
    refine acceptStep_of_acceptProcess (by simp [hop, Config.opDecipher]) ?_
    rw [hop]
    exact (present_ready _ s hrdy).symm.trans h
  · rw [decode_of_opKeysched hop] at h
    exact acceptStep_of_acceptKeysched hop ((present_ready _ s hrdy).symm.trans h)
  · rw [decode_of_opFround hop] at h
    exact acceptStep_of_acceptFround hop ((present_ready _ s hrdy).symm.trans h)

/-- With `I = 0` the effective round number is 0 or 17, which `KeySchedule` refuses (R88, R151). -/
theorem roundStep_of_i_zero {s : State} (h : s.i.toNat = 0) :
    roundStep s = .next (reportError Config.errInvalidRound s) := by
  have hround : effectiveRound (modeOf s.op) s.i.toNat = 0 ∨ 16 < effectiveRound (modeOf s.op) s.i.toNat := by
    cases modeOf s.op <;> simp [effectiveRound, h]
  simp [roundStep, roundBody, keySchedule_invalidRound s.key hround, bind, Except.bind]

/-- A busy engine that is not reset stops, or goes on by one of these rows (R189). -/
theorem busyStep_of_advance {s t : State} (h : advance s = .next t) : BusyStep s t := by
  obtain h0 | ⟨h1, h16⟩ | h17 | h18 :
      s.i.toNat = 0 ∨ (1 ≤ s.i.toNat ∧ s.i.toNat ≤ 16) ∨ s.i.toNat = 17 ∨ 17 < s.i.toNat := by omega
  · rw [advance_round s (by omega), roundStep_of_i_zero h0] at h
    obtain rfl := Host.Outcome.next.inj h
    exact .roundZero h0
  · obtain ⟨r, hbody, hround⟩ := roundStep_next s h1 h16
    rw [advance_round s h16, hround] at h
    obtain rfl := Host.Outcome.next.inj h
    exact .round h1 h16 r hbody
  · obtain ⟨v, hv, hfinal⟩ := finalStep_next s
    rw [advance_final s h17, hfinal] at h
    obtain rfl := Host.Outcome.next.inj h
    exact .final h17 v hv
  · have hle : ¬ s.i.toNat ≤ Config.rounds := by simp only [Config.rounds]; omega
    have hne : s.i.toNat ≠ Config.rounds + 1 := by simp only [Config.rounds]; omega
    rw [advance, if_neg hle, if_neg hne] at h
    nomatch h

/-- Everything one reaction of the engine can do when it goes on (R189). -/
theorem reactStep_of_react {s t : State} (h : react s = .next t) : ReactStep s t := by
  cases hr : s.pins.rst with
  | true =>
    obtain rfl := Host.Outcome.next.inj ((react_reset s hr).symm.trans h)
    exact .reset hr
  | false =>
    by_cases hb : s.st = .busy
    · exact .busy hr hb (busyStep_of_advance ((react_busy s hr hb).symm.trans h))
    cases hs : s.pins.start with
    | true => exact .accept hr hb hs (acceptStep_of_exec hb ((react_presented s hr hs).symm.trans h))
    | false =>
      obtain rfl := Host.Outcome.next.inj ((react_quiet s hb hr hs).symm.trans h)
      exact .quiet hr hb hs

/-! ## The invariant of the reachable states -/

/-- In BUSY the invariant is its first clause (R38 (a), R31, R186). -/
theorem stateInv_of_busy {s : State} (hst : s.st = .busy)
    (h : s.op.getLsbD 1 = false ∧ 1 ≤ s.i.toNat ∧ s.i.toNat ≤ 17 ∧ s.err = 0#2 ∧ NoResult s) : StateInv s := by
  refine ⟨fun _ => h, ?_, ?_, ?_⟩ <;> simp [hst]

/-- In DONE the invariant is its second clause (R38 (b)). -/
theorem stateInv_of_done {s : State} (hst : s.st = .done) (h : s.err = 0#2 ∧ OnlyResultOfOp s) : StateInv s := by
  refine ⟨?_, fun _ => h, ?_, ?_⟩ <;> simp [hst]

/-- In FAULT the invariant is its third clause (R38 (c)). -/
theorem stateInv_of_fault {s : State} (hst : s.st = .fault)
    (h : s.err = 1#2 ∧ s.op = Config.opKeysched ∧ NoResult s) : StateInv s := by
  refine ⟨?_, ?_, fun _ => h, ?_⟩ <;> simp [hst]

/-- In IDLE the invariant is its last clause (R38 (d)). -/
theorem stateInv_of_idle {s : State} (hst : s.st = .idle) (h : s.err = 0#2 ∧ NoResult s) : StateInv s := by
  refine ⟨?_, ?_, ?_, fun _ => h⟩ <;> simp [hst]

/-- The reset step establishes the invariant from any state (R37, R38). -/
theorem stateInv_resetStep (s : State) : StateInv (resetStep s) :=
  stateInv_of_idle rfl ⟨rfl, rfl, rfl, rfl⟩

/-- The host's next levels are not part of the invariant. -/
theorem stateInv_nextPins {s : State} (h : StateInv s) : StateInv (nextPins s) := by
  simpa only [StateInv, NoResult, OnlyResultOfOp, nextPins_st, nextPins_op, nextPins_i, nextPins_err, nextPins_blockOut,
    nextPins_subkeyOut, nextPins_halfOut] using h

/-- Every accept establishes the invariant, whatever the registers held before it (R38). -/
theorem AcceptStep.stateInv {s t : State} (h : AcceptStep s t) : StateInv t := by
  cases h with
  | process hop l r hinit => exact stateInv_of_busy rfl ⟨hop, by simp, by simp, rfl, rfl, rfl, rfl⟩
  | keysched hop h1 h16 v hkey =>
    exact stateInv_of_done rfl ⟨rfl, by simp [OnlyResultOfOp, Config.opKeysched, Config.opFround]⟩
  | invalidRound hop hround => exact stateInv_of_fault rfl ⟨rfl, rfl, rfl, rfl, rfl⟩
  | fround hop v hround =>
    exact stateInv_of_done rfl ⟨rfl, by simp [OnlyResultOfOp, Config.opKeysched, Config.opFround]⟩

/-- The opcode of a process operation names `BLOCK_OUT` alone (R31). -/
theorem onlyResultOfOp_blockOut {s : State} (hop : s.op.getLsbD 1 = false) (hblock : s.blockOut.isSome = true)
    (hsubkey : s.subkeyOut = none) (hhalf : s.halfOut = none) : OnlyResultOfOp s := by
  have hkeysched : s.op ≠ Config.opKeysched := fun h => by simp [h, Config.opKeysched] at hop
  have hfround : s.op ≠ Config.opFround := fun h => by simp [h, Config.opFround] at hop
  exact ⟨iff_of_true hblock hop, iff_of_false (by simp [hsubkey]) hkeysched, iff_of_false (by simp [hhalf]) hfround⟩

/-- A step of the operation in progress keeps the invariant: the round step moves `I` on within 1..17, and the final step writes the
one result `OP` names (R38 (a), (b)). -/
theorem BusyStep.stateInv {s t : State} (hinv : StateInv s) (hb : s.st = .busy) (h : BusyStep s t) : StateInv t := by
  obtain ⟨hop, hi1, -, herr, hblock, hsubkey, hhalf⟩ := hinv.1 hb
  cases h with
  | round h1 h16 r hbody =>
    have hi := i_succ_toNat s h16
    have hcounter : 1 ≤ (s.i + 1#5).toNat ∧ (s.i + 1#5).toNat ≤ 17 := by omega
    exact stateInv_of_busy hb ⟨hop, hcounter.1, hcounter.2, herr, hblock, hsubkey, hhalf⟩
  | final h17 v hout => exact stateInv_of_done rfl ⟨herr, onlyResultOfOp_blockOut hop rfl hsubkey hhalf⟩
  | roundZero h0 => omega

/-- Every reaction of the engine keeps the invariant (R38). -/
theorem ReactStep.stateInv {s t : State} (hinv : StateInv s) (h : ReactStep s t) : StateInv t := by
  cases h with
  | reset hr => exact stateInv_resetStep s
  | quiet hr hrdy hs => exact hinv
  | accept hr hrdy hs ht => exact ht.stateInv
  | busy hr hb ht => exact ht.stateInv hinv hb

/-- Settles O42: the reaction keeps the invariant, by the rows of the step relation, and the host's levels are no part of it. -/
theorem everyStepKeepsTheInvariant : Obligations.EveryStepKeepsTheInvariant := by
  unfold Obligations.EveryStepKeepsTheInvariant
  intro s t hinv h
  obtain ⟨u, hu, rfl⟩ := react_of_step h
  exact stateInv_nextPins ((reactStep_of_react hu).stateInv hinv)

/-- Settles O40: `State.reset` is a literal, and its flags and outputs are computed. -/
theorem resetStateIsAsSpecified : Obligations.ResetStateIsAsSpecified := by
  unfold Obligations.ResetStateIsAsSpecified
  decide

/-- Settles O41: the reset state is in IDLE with no error and no result. -/
theorem invariantHoldsAtReset : Obligations.InvariantHoldsAtReset := by
  unfold Obligations.InvariantHoldsAtReset
  exact stateInv_of_idle rfl ⟨rfl, rfl, rfl, rfl⟩

/-- Settles O45: the flags and the error code in each of the four sequencer states. -/
theorem statusFlagsAreConsistent : Obligations.StatusFlagsAreConsistent := by
  unfold Obligations.StatusFlagsAreConsistent
  intro s ⟨hbusy, hdone, hfault, hidle⟩
  cases hst : s.st with
  | idle =>
    obtain ⟨herr, -⟩ := hidle hst
    simp [busy, hst, herr]
  | busy =>
    obtain ⟨-, -, -, herr, -⟩ := hbusy hst
    simp [done, hst, herr]
  | done =>
    obtain ⟨herr, -⟩ := hdone hst
    simp [busy, hst, herr]
  | fault =>
    obtain ⟨herr, -⟩ := hfault hst
    simp [busy, done, hst, herr]

/-! ## Who writes the result registers -/

/-- No accept leaves a value in `BLOCK_OUT` (R31). -/
theorem AcceptStep.blockOut {s t : State} (h : AcceptStep s t) : t.blockOut = none := by
  cases h <;> rfl

/-- Only the accept of KEYSCHED with a valid round leaves a value in `SUBKEY_OUT` (R31). -/
theorem AcceptStep.subkeyOut {s t : State} (h : AcceptStep s t) :
    t.subkeyOut = none ∨
      (s.pins.cmd.op = 0b10#2 ∧ 1 ≤ s.pins.cmd.roundIn.toNat ∧ s.pins.cmd.roundIn.toNat ≤ 16) := by
  cases h with
  | keysched hop h1 h16 v hkey => exact .inr ⟨hop, h1, h16⟩
  | _ => exact .inl rfl

/-- Only the accept of FROUND leaves a value in `HALF_OUT` (R31). -/
theorem AcceptStep.halfOut {s t : State} (h : AcceptStep s t) : t.halfOut = none ∨ s.pins.cmd.op = 0b11#2 := by
  cases h with
  | fround hop v hround => exact .inr hop
  | _ => exact .inl rfl

/-- In the loop the results are kept, and the final step writes `BLOCK_OUT` alone (R31, R187, R188). -/
theorem BusyStep.results_kept {s t : State} (h : BusyStep s t) (hi : 1 ≤ s.i.toNat) :
    t.subkeyOut = s.subkeyOut ∧ t.halfOut = s.halfOut ∧ (s.i.toNat ≤ 16 → t.blockOut = s.blockOut) := by
  cases h with
  | round h1 h16 r hbody => exact ⟨rfl, rfl, fun _ => rfl⟩
  | final h17 v hout => exact ⟨rfl, rfl, fun h16 => by omega⟩
  | roundZero h0 => omega

/-- A value a result register holds after a step in BUSY was there before, or the final step wrote it to `BLOCK_OUT` (R31). -/
theorem BusyStep.result_of_some {s t : State} (h : BusyStep s t) :
    (∀ v, t.blockOut = some v → s.blockOut = some v ∨ s.i.toNat = 17) ∧
    (∀ v, t.subkeyOut = some v → s.subkeyOut = some v) ∧ (∀ v, t.halfOut = some v → s.halfOut = some v) := by
  cases h with
  | round h1 h16 r hbody => exact ⟨fun _ => .inl, fun _ => id, fun _ => id⟩
  | final h17 v hout => exact ⟨fun _ _ => .inr h17, fun _ => id, fun _ => id⟩
  | roundZero h0 => simp

/-- Settles O46: each row of the step relation meets the clauses about it, and the others do not apply. -/
theorem resultRegistersHaveOneWriter : Obligations.ResultRegistersHaveOneWriter := by
  unfold Obligations.ResultRegistersHaveOneWriter
  intro s t h
  cases reactStep_of_react h with
  | reset hr => simp [hr, NoResult]
  | quiet hr hrdy hs => simp [hr, hrdy, hs]
  | accept hr hrdy hs ht =>
    have hsubkey := ht.subkeyOut
    have hhalf := ht.halfOut
    refine ⟨?_, ?_, ?_, fun _ _ _ => ⟨ht.blockOut, hsubkey.resolve_right, hhalf.resolve_right⟩, ?_, ?_, ?_⟩
    · simp [ht.blockOut]
    · intro v hv
      exact .inr ⟨hr, hrdy, hs, hsubkey.resolve_left (by simp [hv])⟩
    · intro v hv
      exact .inr ⟨hr, hrdy, hs, hhalf.resolve_left (by simp [hv])⟩
    · simp [hs]
    · exact fun _ hb => absurd hb hrdy
    · simp [hr]
  | busy hr hb ht =>
    obtain ⟨hblock, hsubkey, hhalf⟩ := ht.result_of_some
    refine ⟨fun v hv => (hblock v hv).imp_right fun h17 => ⟨hr, hb, h17⟩, fun v hv => .inl (hsubkey v hv),
      fun v hv => .inl (hhalf v hv), fun _ hrdy => absurd hb hrdy, fun _ hrdy => absurd hb hrdy,
      fun _ _ => ht.results_kept, ?_⟩
    simp [hr]

/-! ## Who writes `KEY` and `OP` -/

/-- Every accept samples the opcode (R25). -/
theorem AcceptStep.op {s t : State} (h : AcceptStep s t) : t.op = s.pins.cmd.op := by
  cases h with
  | process hop l r hinit => rfl
  | keysched hop h1 h16 v hkey => exact hop.symm
  | invalidRound hop hround => exact hop.symm
  | fround hop v hround => exact hop.symm

/-- Only the accept of a process command samples the key (R24). -/
theorem AcceptStep.key {s t : State} (h : AcceptStep s t) :
    t.key = s.key ∨ (s.pins.cmd.op.getLsbD 1 = false ∧ t.key = s.pins.cmd.keyIn) := by
  cases h with
  | process hop l r hinit => exact .inr ⟨hop, rfl⟩
  | _ => exact .inl rfl

/-- The operation in progress keeps its key and its opcode (R24, R25). -/
theorem BusyStep.key_op {s t : State} (h : BusyStep s t) : t.key = s.key ∧ t.op = s.op := by
  cases h <;> exact ⟨rfl, rfl⟩

/-- Settles O47: of the rows without a reset only the accepts write `KEY` or `OP`. -/
theorem keyAndOpAreWrittenOnlyAtAccept : Obligations.KeyAndOpAreWrittenOnlyAtAccept := by
  unfold Obligations.KeyAndOpAreWrittenOnlyAtAccept
  intro s t h hnorst
  cases reactStep_of_react h with
  | reset hr => simp [hr] at hnorst
  | quiet hr hrdy hs => exact ⟨.inl rfl, .inl rfl⟩
  | accept hr hrdy hs ht => exact ⟨ht.key.imp_right fun hkey => ⟨hrdy, hs, hkey⟩, .inr ⟨hrdy, hs, ht.op⟩⟩
  | busy hr hb ht =>
    obtain ⟨hkey, hop⟩ := ht.key_op
    exact ⟨.inl hkey, .inl hop⟩

end Sys2Proof.Machine

/-! PROOFS. The S-box reads (20_memory.md R52): the address by row and column is the flat 6-bit address, and the read is the entry of
the box at that row and column. -/

namespace Sys2Proof.Machine

/-! ## A read of a table and of a box -/

/-- `TabRead` gives a value exactly where the table has an entry. -/
theorem tabRead_eq_ok {t : List Nat} {k v : Nat} : tabRead t k = .ok v ↔ t[k]? = some v := by
  unfold tabRead
  cases t[k]? <;> simp

/-- `SboxRead` is the entry `SBOX[b][row][col]`: the empty defaults of the model stand for no entry (R57). -/
theorem sboxRead_eq_ok {b row col v : Nat} :
    sboxRead b row col = .ok v ↔
      tableSBOX[b]?.bind (fun box => box[row]?.bind fun entries => entries[col]?) = some v := by
  rw [sboxRead, tabRead_eq_ok, List.getD_eq_getElem?_getD, List.getD_eq_getElem?_getD]
  cases tableSBOX[b]? with
  | none => simp
  | some box => cases hrow : box[row]? <;> simp [hrow]

/-! ## The two forms of the address -/

/-- The 6-bit address of a group is its first bit, its column and its last bit, in this order. -/
theorem bitsToInt_eq_sboxCol {grp : BitSeq} (h : grp.length = 6) :
    bitsToInt grp = 32 * (grp.getD 0 false).toNat + 2 * sboxCol grp + (grp.getD 5 false).toNat := by
  match grp, h with
  | [a, b, c, d, e, f], _ =>
    have hgrp : [a, b, c, d, e, f] = [a] ++ [b, c, d, e] ++ [f] := rfl
    have hcol : sboxCol [a, b, c, d, e, f] = bitsToInt [b, c, d, e] := rfl
    rw [hcol, hgrp, bitsToInt_append, bitsToInt_append]
    simp [bitsToInt_cons]
    ring

/-- The row is the outer two bits of the flat address: `row = 2*a[5] + a[0]` (R52). -/
theorem sboxRow_eq_flat {grp : BitSeq} (h : grp.length = 6) :
    sboxRow grp = 2 * (bitsToInt grp / 32) + bitsToInt grp % 2 := by
  have haddr := bitsToInt_eq_sboxCol h
  have hcol := sboxCol_lt grp
  have hlast := Bool.toNat_le (grp.getD 5 false)
  unfold sboxRow
  omega

/-- The column is the middle four bits of the flat address: `col = a[4:1]` (R52). -/
theorem sboxCol_eq_flat {grp : BitSeq} (h : grp.length = 6) : sboxCol grp = bitsToInt grp / 2 % 16 := by
  have haddr := bitsToInt_eq_sboxCol h
  have hcol := sboxCol_lt grp
  have hlast := Bool.toNat_le (grp.getD 5 false)
  omega

/-- Settles O18: row and column are in range and agree with the flat address, and in range every read is a defined entry. -/
theorem everySboxAddressIsDefined : Obligations.EverySboxAddressIsDefined := by
  unfold Obligations.EverySboxAddressIsDefined
  intro b grp hb hlen
  have hrow := sboxRow_lt grp
  have hcol := sboxCol_lt grp
  obtain ⟨v, hread, hv⟩ := sboxRead_ok b (sboxRow grp) (sboxCol grp) hb hrow hcol
  exact ⟨rfl, hrow, rfl, hcol, sboxRow_eq_flat hlen, sboxCol_eq_flat hlen, v, hread, hv, sboxRead_eq_ok.1 hread⟩

end Sys2Proof.Machine

/-! PROOFS. The encoding (30_encoding.md): decoding undoes presenting and the reverse (R82, R84), the ports a command does not read
have no effect on its step (R92), and the effective round number (R88). -/

namespace Sys2Proof.Machine

/-! ## A command does not look at what the host drives -/

/-- The accept of a process command looks at its operands, not at the ports (44_engine.md R186). -/
theorem acceptProcess_drive (op : BitVec 2) (block : Block) (key : Key) (p : Inputs) (q : List Inputs) (s : State) :
    acceptProcess op block key (drive p q s) = onNext (acceptProcess op block key s) fun t => .next (drive p q t) := by
  rw [acceptProcess, acceptProcess, ← settle_drive]
  congr 1
  cases initialHalves block with
  | error e => rfl
  | ok halves =>
    simp only [bind, Except.bind]
    cases pack 32 halves.1 with
    | error e => rfl
    | ok l => cases pack 32 halves.2 <;> rfl

/-- The accept of KEYSCHED looks at its operands, not at the ports (42_key_schedule.md R158). -/
theorem acceptKeysched_drive (key : Key) (round : BitVec 8) (p : Inputs) (q : List Inputs) (s : State) :
    acceptKeysched key round (drive p q s) = onNext (acceptKeysched key round s) fun t => .next (drive p q t) := by
  rw [acceptKeysched, acceptKeysched, ← settle_drive]
  congr 1
  cases keySchedule key round.toNat with
  | error e => rfl
  | ok k =>
    simp only [bind, Except.bind]
    cases pack 48 k <;> rfl

/-- The accept of FROUND looks at its operands, not at the ports (43_feistel.md R172). -/
theorem acceptFround_drive (half : Half) (subkey : Subkey) (p : Inputs) (q : List Inputs) (s : State) :
    acceptFround half subkey (drive p q s) = onNext (acceptFround half subkey s) fun t => .next (drive p q t) := by
  rw [acceptFround, acceptFround, ← settle_drive]
  congr 1
  cases feistelRound (toSeq half) (toSeq subkey) with
  | error e => rfl
  | ok f =>
    simp only [bind, Except.bind]
    cases pack 32 f <;> rfl

/-- When the accept of a command does not look at the ports, neither does the command: a busy engine never does (R241). -/
theorem present_drive {a : State → Host.Outcome State Fault Refusal} {p : Inputs} {q : List Inputs} {s : State}
    (ha : a (drive p q s) = onNext (a s) fun t => .next (drive p q t)) :
    present a (drive p q s) = onNext (present a s) fun t => .next (drive p q t) := by
  by_cases hb : s.st = .busy
  · rw [present_busy a s hb, present_busy a (drive p q s) hb, advance_drive]
  · rw [present_ready a s hb, present_ready a (drive p q s) hb, ha]

/-- What a command does depends on its operands and the engine, not on what the host drives. -/
theorem exec_drive (i : Instr) (p : Inputs) (q : List Inputs) (s : State) :
    exec i (drive p q s) = onNext (exec i s) fun t => .next (drive p q t) := by
  cases i with
  | encipher block key => exact present_drive (acceptProcess_drive Config.opEncipher block key p q s)
  | decipher block key => exact present_drive (acceptProcess_drive Config.opDecipher block key p q s)
  | keysched key round => exact present_drive (acceptKeysched_drive key round p q s)
  | fround half subkey => exact present_drive (acceptFround_drive half subkey p q s)

/-- The reaction to a presented command is the command's own step: the ports it does not read show only in what is driven. -/
theorem react_encodeOnto (i : Instr) (c : CommandPorts) (s : State) :
    react { s with pins := { rst := false, start := true, cmd := encodeOnto i c } } =
      onNext (exec i s) fun t => .next (drive { rst := false, start := true, cmd := encodeOnto i c } s.later t) := by
  rw [react_presented _ rfl rfl, decode_encodeOnto]
  exact exec_drive i _ s.later s

/-- Settles O27: with either setting of the other ports the step is the command's step on the same engine. -/
theorem unreadPortsHaveNoEffect : Obligations.UnreadPortsHaveNoEffect := by
  unfold Obligations.UnreadPortsHaveNoEffect
  intro i c1 c2 s t1 h
  rw [react_encodeOnto] at h ⊢
  cases hexec : exec i s with
  | next u =>
    rw [hexec] at h
    obtain rfl := Host.Outcome.next.inj h
    exact ⟨_, rfl, ⟨rfl, rfl, rfl, rfl, rfl, rfl, rfl, rfl, rfl, rfl⟩, rfl, rfl⟩
  | fault e => rw [hexec] at h; nomatch h
  | refused e => rw [hexec] at h; nomatch h

/-! ## Decoding and encoding -/

/-- Presenting a decoded command on the ports it was decoded from changes nothing (R84). -/
@[simp] theorem encodeOnto_decode (c : CommandPorts) : encodeOnto (decode c) c = c := by
  obtain hop | hop | hop | hop := opcode_cases c.op
  · rw [decode_of_opEncipher hop, encodeOnto, ← hop]
  · rw [decode_of_opDecipher hop, encodeOnto, ← hop]
  · rw [decode_of_opKeysched hop, encodeOnto, ← hop]
  · rw [decode_of_opFround hop, encodeOnto, ← hop]

/-- The opcode put on `op` is the command's alone (R82). -/
theorem encodeOnto_op (i : Instr) (c : CommandPorts) : (encodeOnto i c).op = (encode i).op := by
  cases i <;> rfl

/-- Settles O25: `decode` and `encodeOnto` are inverse to each other, and the opcode of the ports is the encoded one. -/
theorem decodeAndEncodeAgree : Obligations.DecodeAndEncodeAgree := by
  unfold Obligations.DecodeAndEncodeAgree
  refine ⟨decode_encodeOnto, encodeOnto_decode, ?_⟩
  rintro _ c rfl
  rw [← encodeOnto_op _ c, encodeOnto_decode]

/-! ## The words of the opcode table -/

/-- A word of the opcode table is decoded as the ports that carry it. -/
theorem decodeTableWord_of_lt {nbits w : Nat} (h : w % 2 ^ nbits < 4) :
    decodeTableWord nbits w = some (decode (CommandPorts.ofWord (w % 2 ^ nbits))) := if_pos h

/-- A word with a bit above `op[1]` decodes to nothing (log 10). -/
theorem decodeTableWord_of_not_lt {nbits w : Nat} (h : ¬ w % 2 ^ nbits < 4) : decodeTableWord nbits w = none := if_neg h

/-- Settles O26: each of the four words is the opcode of its command, with zeros on the operand ports. -/
theorem opcodeWordsDecode : Obligations.OpcodeWordsDecode := by
  unfold Obligations.OpcodeWordsDecode
  refine ⟨?_, ?_, ?_, ?_, decodeTableWord_of_not_lt (by decide)⟩
  · rw [decodeTableWord_of_lt (by decide), decode_of_opEncipher rfl]; rfl
  · rw [decodeTableWord_of_lt (by decide), decode_of_opDecipher rfl]; rfl
  · rw [decodeTableWord_of_lt (by decide), decode_of_opKeysched rfl]; rfl
  · rw [decodeTableWord_of_lt (by decide), decode_of_opFround rfl]; rfl

/-! ## The effective round number -/

/-- Deciphering takes the rounds in reverse order: `r = 17 - i` (R88). -/
theorem effectiveRound_decipher_add {i : Nat} (h : i ≤ 17) : effectiveRound .decipher i + i = 17 := Nat.sub_add_cancel h

/-- Settles O28: the two directions by definition, the range by `effectiveRound_range`. -/
theorem effectiveRoundStaysInRange : Obligations.EffectiveRoundStaysInRange := by
  unfold Obligations.EffectiveRoundStaysInRange
  intro i h1 h16
  exact ⟨rfl, effectiveRound_decipher_add (by omega), fun m => effectiveRound_range m i h1 h16⟩

end Sys2Proof.Machine

/-! PROOFS. The bit vector layer (40_bitvector.md): the conversions (R110 to R114), `xor` and `and` (R115, R116), rotation and shift
(R117, R121), and the index tables as maps of sequences (R118, R122). -/

namespace Sys2Proof.Machine

/-! ## Conversions -/

/-- The narrower conversion is the end of the wider one (R111). -/
theorem drop_bitsOf (v w k : Nat) : (bitsOf v (w + k)).drop k = bitsOf v w := by
  induction k with
  | zero => rfl
  | succ k ih => rw [← Nat.add_assoc, bitsOf_succ, List.drop_succ_cons, ih]

/-- Settles O1: the bits by `bitsOf_getElem`, the refusal by definition, the 4-bit case by `drop_bitsOf`. -/
theorem intToBitsGivesTheBitsOrRefuses : Obligations.IntToBitsGivesTheBitsOrRefuses := by
  unfold Obligations.IntToBitsGivesTheBitsOrRefuses
  refine ⟨fun v w hv => ⟨_, intToBits_ok v w hv, bitsOf_length v w, fun k hk => ?_⟩, fun v w hv => if_neg hv,
    fun v hv => ⟨_, _, intToBits_ok v 4 hv, intToBits_ok v 8 (by omega), ?_⟩⟩
  · rw [List.getElem?_eq_getElem (by simpa using hk), bitsOf_getElem v w k hk]
  · rw [slice, drop_bitsOf v 4 4, List.take_of_length_le (by simp)]

/-- Settles O2: the round trips of `bitsOf`; the integer of a sequence always fits its length (`bitsToInt_lt`). -/
theorem bitConversionRoundTrips : Obligations.BitConversionRoundTrips := by
  unfold Obligations.BitConversionRoundTrips
  refine ⟨fun v w hv => ⟨_, intToBits_ok v w hv, ?_⟩, fun s => ?_⟩
  · rw [bitsToInt_bitsOf, Nat.mod_eq_of_lt hv]
  · rw [intToBits_ok _ _ (bitsToInt_lt s), bitsOf_bitsToInt]

/-! ## Element by element -/

theorem xorSeq_lengthMismatch {a b : BitSeq} (h : a.length ≠ b.length) : xorSeq a b = .error .lengthMismatch := if_neg h

theorem andSeq_ok (a b : BitSeq) (h : a.length = b.length) : andSeq a b = .ok (List.zipWith Bool.and a b) := if_pos h

theorem andSeq_lengthMismatch {a b : BitSeq} (h : a.length ≠ b.length) : andSeq a b = .error .lengthMismatch := if_neg h

/-- Element `k` of an element-by-element operation that keeps zeros. Beyond the end both sides are the default. -/
theorem getD_zipWith (f : Bool → Bool → Bool) (hf : f false false = false) {a b : BitSeq} (h : a.length = b.length) (k : Nat) :
    (List.zipWith f a b).getD k false = f (a.getD k false) (b.getD k false) := by
  by_cases hk : k < a.length
  · simp [List.getElem?_zipWith, List.getElem?_eq_getElem hk, List.getElem?_eq_getElem (h ▸ hk)]
  · simp [List.getElem?_zipWith, List.getElem?_eq_none (Nat.le_of_not_lt hk), List.getElem?_eq_none (h ▸ Nat.le_of_not_lt hk), hf]

/-- Mixing twice with the same sequence undoes itself (R115). -/
theorem zipWith_xor_cancel {a b : BitSeq} (h : a.length = b.length) :
    List.zipWith Bool.xor (List.zipWith Bool.xor a b) b = a :=
  List.ext_getElem (by simp [h]) fun k _ _ => by simp

/-- An operation with a fixed second operand is a map. -/
theorem zipWith_replicate_length (f : Bool → Bool → Bool) (a : BitSeq) (c : Bool) :
    List.zipWith f a (List.replicate a.length c) = a.map fun x => f x c :=
  List.ext_getElem (by simp) fun k _ _ => by simp

/-- Settles O3: `getD_zipWith` for the elements, `zipWith_xor_cancel` and the operations with a fixed operand for the corner
cases. -/
theorem xorAndAreElementwiseOrLengthMismatch : Obligations.XorAndAreElementwiseOrLengthMismatch := by
  unfold Obligations.XorAndAreElementwiseOrLengthMismatch
  intro a b
  have hlen (c : Bool) : a.length = (List.replicate a.length c).length := by simp
  refine ⟨fun h => ⟨xorSeq_lengthMismatch h, andSeq_lengthMismatch h⟩,
    fun h => ⟨_, _, xorSeq_ok a b h, andSeq_ok a b h, by simp [h], by simp [h],
      fun k _ => ⟨getD_zipWith Bool.xor rfl h k, getD_zipWith Bool.and rfl h k⟩, ?_, ?_⟩, ?_, ?_, ?_, ?_, ?_⟩
  · rw [xorSeq_ok b a h.symm, List.zipWith_comm_of_comm Bool.xor_comm]
  · rw [xorSeq_ok _ b (by simp [h]), zipWith_xor_cancel h]
  · rw [xorSeq_ok a a rfl, List.zipWith_self]; simp
  · rw [xorSeq_ok a _ (hlen _), zipWith_replicate_length]; simp
  · rw [andSeq_ok a a rfl, List.zipWith_self]; simp
  · rw [andSeq_ok a _ (hlen _), zipWith_replicate_length]; simp
  · rw [andSeq_ok a _ (hlen _), zipWith_replicate_length]; simp

/-! ## Rotation and shift -/

/-- With wrap-around `rotateLeft` is the library's rotation. -/
theorem rotateLeft_wrap {s : BitSeq} {n : Nat} (h : n ≤ s.length) : rotateLeft s n true = .ok (s.rotate n) := by
  rw [rotateLeft, if_pos h, List.rotate_eq_drop_append_take h, if_pos rfl]

/-- Without wrap-around the freed positions are zeros. -/
theorem rotateLeft_noWrap {s : BitSeq} {n : Nat} (h : n ≤ s.length) :
    rotateLeft s n false = .ok (s.drop n ++ List.replicate n false) := by
  rw [rotateLeft, if_pos h, if_neg Bool.false_ne_true]

theorem rotateLeft_outsideDomain {s : BitSeq} {n : Nat} (h : s.length < n) (wrap : Bool) :
    rotateLeft s n wrap = .error .outsideDomain := if_neg (Nat.not_le_of_lt h)

/-- The first `n` elements are the quotient, the rest is the remainder. -/
theorem bitsToInt_eq_take_drop (s : BitSeq) (n : Nat) :
    bitsToInt s = bitsToInt (s.take n) * 2 ^ (s.length - n) + bitsToInt (s.drop n) := by
  have h := bitsToInt_append (s.take n) (s.drop n)
  rwa [List.take_append_drop, List.length_drop] at h

theorem bitsToInt_drop_lt (s : BitSeq) (n : Nat) : bitsToInt (s.drop n) < 2 ^ (s.length - n) := by
  simpa using bitsToInt_lt (s.drop n)

theorem bitsToInt_take (s : BitSeq) (n : Nat) : bitsToInt (s.take n) = bitsToInt s / 2 ^ (s.length - n) := by
  rw [bitsToInt_eq_take_drop s n, Nat.mul_comm, Nat.mul_add_div (by positivity),
    Nat.div_eq_of_lt (bitsToInt_drop_lt s n), Nat.add_zero]

theorem bitsToInt_drop (s : BitSeq) (n : Nat) : bitsToInt (s.drop n) = bitsToInt s % 2 ^ (s.length - n) := by
  rw [bitsToInt_eq_take_drop s n, Nat.mul_add_mod_self_right, Nat.mod_eq_of_lt (bitsToInt_drop_lt s n)]

theorem bitsToInt_replicate_false (n : Nat) : bitsToInt (List.replicate n false) = 0 := by
  induction n with
  | zero => rfl
  | succ n ih => rw [List.replicate_succ, bitsToInt_cons, ih, Bool.toNat_false, Nat.zero_mul]

/-- What remains after `n` elements are removed, moved up by `n` places, is the left shift without its overflow (R117). -/
theorem bitsToInt_drop_mul {s : BitSeq} {n : Nat} (h : n ≤ s.length) :
    bitsToInt (s.drop n) * 2 ^ n = bitsToInt s * 2 ^ n % 2 ^ s.length := by
  have hpow : 2 ^ s.length = 2 ^ (s.length - n) * 2 ^ n := by rw [← Nat.pow_add, Nat.sub_add_cancel h]
  rw [bitsToInt_drop, hpow, Nat.mul_mod_mul_right]

/-- The shift as an integer (R117). -/
theorem bitsToInt_drop_append_replicate {s : BitSeq} {n : Nat} (h : n ≤ s.length) :
    bitsToInt (s.drop n ++ List.replicate n false) = bitsToInt s * 2 ^ n % 2 ^ s.length := by
  rw [bitsToInt_append, List.length_replicate, bitsToInt_drop_mul h, bitsToInt_replicate_false, Nat.add_zero]

/-- The rotation as an integer (R117). -/
theorem bitsToInt_rotate {s : BitSeq} {n : Nat} (h : n ≤ s.length) :
    bitsToInt (s.rotate n) = bitsToInt s * 2 ^ n % 2 ^ s.length + bitsToInt s / 2 ^ (s.length - n) := by
  rw [List.rotate_eq_drop_append_take h, bitsToInt_append, List.length_take_of_le h, bitsToInt_drop_mul h, bitsToInt_take]

/-- The removed elements return at the end. -/
theorem getElem?_rotate_wrapped {s : BitSeq} {n k : Nat} (h : n ≤ s.length) (hn : s.length - n ≤ k) (hk : k < s.length) :
    (s.rotate n)[k]? = s[k + n - s.length]? := by
  rw [List.getElem?_rotate hk, Nat.mod_eq_sub_mod (by omega), Nat.mod_eq_of_lt (by omega)]

/-- Settles O4: both forms begin with the elements after the removed ones and differ in the end and its integer value. -/
theorem rotateLeftRotatesOrShifts : Obligations.RotateLeftRotatesOrShifts := by
  unfold Obligations.RotateLeftRotatesOrShifts
  intro s n
  refine ⟨fun h => ⟨_, _, rotateLeft_wrap h, rotateLeft_noWrap h, List.length_rotate s n, by simp [h], ?_, ?_,
    bitsToInt_drop_append_replicate h, bitsToInt_rotate h⟩, rotateLeft_outsideDomain⟩
  · intro k hk
    constructor
    · rw [List.getElem?_rotate (by omega), Nat.mod_eq_of_lt (by omega)]
    · rw [List.getElem?_append_left (by simpa using hk), List.getElem?_drop, Nat.add_comm]
  · intro k hn hk
    constructor
    · exact getElem?_rotate_wrapped h hn hk
    · rw [List.getElem?_append_right (by simpa using hn), List.getElem?_replicate_of_lt (by simp; omega)]

/-- One more entry of the schedule (42_key_schedule.md R154). -/
theorem totalShift_succ {n : Nat} (h : n < tableSHIFT.length) : totalShift (n + 1) = totalShift n + tableSHIFT[n] := by
  rw [totalShift, totalShift, List.take_succ_eq_append_getElem h, List.sum_append, List.sum_singleton]

/-- The rotations of the schedule, one after the other, are one rotation by their sum. -/
theorem rotateHalves_eq_rotate (n : Nat) {c d : BitSeq} (hn : n ≤ 16) (hc : c.length = 28) (hd : d.length = 28) :
    rotateHalves n c d = .ok (c.rotate (totalShift n), d.rotate (totalShift n)) := by
  induction n with
  | zero => simp [rotateHalves, totalShift]
  | succ n ih =>
    have hlt : n < tableSHIFT.length := Nat.lt_of_succ_le hn
    have hle : tableSHIFT[n] ≤ 28 := shift_in_range _ (List.getElem_mem hlt)
    have hrotate (s : BitSeq) (hs : s.length = 28) :
        rotateLeft (s.rotate (totalShift n)) tableSHIFT[n] true = .ok (s.rotate (totalShift (n + 1))) := by
      rw [rotateLeft_wrap (by rw [List.length_rotate, hs]; exact hle), List.rotate_rotate, totalShift_succ hlt]
    simp [rotateHalves, ih (by omega), tabRead_ok _ _ hlt, hrotate c hc, hrotate d hd, bind, Except.bind, pure, Except.pure]

/-- A rotation of 28 elements counts modulo 28. -/
theorem rotateLeft_mod_28 {s : BitSeq} (h : s.length = 28) (n : Nat) : rotateLeft s (n % 28) true = .ok (s.rotate n) := by
  rw [rotateLeft_wrap (by omega), ← h, List.rotate_mod]

/-- Settles O5: `rotateLeft` with wrap-around is the library's rotation, which composes and counts modulo the length. -/
theorem rotationsCompose : Obligations.RotationsCompose := by
  unfold Obligations.RotationsCompose
  refine ⟨fun s a b h => ⟨_, rotateLeft_wrap (by omega), ?_⟩, fun s => ?_, fun r c d hr hc hd =>
    ⟨_, _, rotateHalves_eq_rotate r hr hc hd, rotateLeft_mod_28 hc _, rotateLeft_mod_28 hd _⟩⟩
  · rw [rotateLeft_wrap (by rw [List.length_rotate]; omega), List.rotate_rotate, rotateLeft_wrap h]
  · rw [rotateLeft_wrap le_rfl, List.rotate_length]

/-! ## Index tables -/

theorem permute_lengthMismatch {s : BitSeq} {T : Table} (h : s.length ≠ T.inLen) : permute s T = .error .lengthMismatch :=
  if_neg h

/-- An entry that names an element of the sequence selects it: the default is not taken (R118, 20_memory.md R57). -/
theorem permute_selects {s out : BitSeq} {T : Table} (h : permute s T = .ok out) {k j : Nat} (hj : T.entries[k]? = some j)
    (hin : j - 1 < s.length) : out[k]? = s[j - 1]? := by
  rw [permute_getElem? s out T h k, hj]
  simp [List.getElem?_eq_getElem hin]

/-- Selecting by a table is linear over `xor`, whatever the table (R118). -/
theorem permute_zipWith_xor {s t : BitSeq} {T : Table} (hs : s.length = T.inLen) (ht : t.length = T.inLen) :
    permute (List.zipWith Bool.xor s t) T =
      .ok (List.zipWith Bool.xor (T.entries.map fun j => s.getD (j - 1) false) (T.entries.map fun j => t.getD (j - 1) false)) := by
  rw [permute_ok _ _ (by simp [hs, ht]), List.zipWith_map, List.zipWith_self]
  simp only [getD_zipWith Bool.xor rfl (hs.trans ht.symm)]

/-- Settles O6: `permute_selects` with the entries in range by `indexTables_in_range`, and `permute_zipWith_xor`. -/
theorem tablesSelectAndAreLinear : Obligations.TablesSelectAndAreLinear := by
  unfold Obligations.TablesSelectAndAreLinear
  intro T hT
  refine ⟨fun s hs => ⟨_, permute_ok s T hs, List.length_map _, fun k j hj => ?_⟩, fun s => permute_lengthMismatch,
    fun s t hs ht => ⟨_, _, _, _, xorSeq_ok s t (hs.trans ht.symm), permute_ok s T hs, permute_ok t T ht,
      permute_zipWith_xor hs ht, xorSeq_ok _ _ (by simp)⟩⟩
  obtain ⟨h1, hle⟩ := indexTables_in_range T hT j (List.mem_of_getElem? hj)
  have hin : j - 1 < s.length := by omega
  exact ⟨h1, by simp [hin], permute_selects (permute_ok s T hs) hj hin⟩

/-- `T` read where `U` points names every position in order: in table terms, selecting by `U` undoes selecting by `T`. -/
def Table.UndoneBy (T U : Table) : Prop :=
  ∀ k < T.inLen, ∃ j, tabRead U.entries k = .ok j ∧ tabRead T.entries (j - 1) = .ok (k + 1)

/-- An inverse in table terms is an inverse on sequences (R122). -/
theorem Table.UndoneBy.permute_permute {T U : Table} (h : T.UndoneBy U) (hT : T.entries.length = U.inLen)
    (hU : U.entries.length = T.inLen) {s : BitSeq} (hs : s.length = T.inLen) :
    ∃ a, permute s T = .ok a ∧ permute a U = .ok s := by
  refine ⟨_, permute_ok s T hs, ?_⟩
  rw [permute_ok _ U (by simpa using hT)]
  congr 1
  refine List.ext_getElem (by simp [hU, hs]) fun k _ hk => ?_
  obtain ⟨j, hj, hback⟩ := h k (by omega)
  obtain ⟨_, hj⟩ := List.getElem?_eq_some_iff.1 (tabRead_eq_ok.1 hj)
  simp [hj, tabRead_eq_ok.1 hback, hk]

/-- `UndoneBy`, as a check of the entries. -/
theorem Table.undoneBy_of_entries {T U : Table}
    (h : ∀ k < T.inLen, (U.entries[k]?.bind fun j => T.entries[j - 1]?) = some (k + 1)) : T.UndoneBy U := by
  intro k hk
  obtain ⟨j, hj, hback⟩ := Option.bind_eq_some_iff.1 (h k hk)
  exact ⟨j, tabRead_eq_ok.2 hj, tabRead_eq_ok.2 hback⟩

theorem tableIP_undoneBy_tableFP : tableIP.UndoneBy tableFP := Table.undoneBy_of_entries (by decide)

theorem tableFP_undoneBy_tableIP : tableFP.UndoneBy tableIP := Table.undoneBy_of_entries (by decide)

/-- Settles O7: each table is the other's inverse entry by entry, so it is on sequences. -/
theorem finalPermutationUndoesInitial : Obligations.FinalPermutationUndoesInitial := by
  unfold Obligations.FinalPermutationUndoesInitial
  refine ⟨fun s hs => ⟨tableIP_undoneBy_tableFP.permute_permute rfl rfl hs,
    tableFP_undoneBy_tableIP.permute_permute rfl rfl hs⟩, fun k hk => ?_⟩
  obtain ⟨f, hf, hIP⟩ := tableIP_undoneBy_tableFP k hk
  obtain ⟨i, hi, hFP⟩ := tableFP_undoneBy_tableIP k hk
  exact ⟨i, f, hi, hf, hIP, hFP⟩

end Sys2Proof.Machine

/-! PROOFS. The tables (41_tables.md): each permutation and selection table as a permutation of the values it lists, the checks of
R146, and the key bits that `PC1` never reads (R133). -/

namespace Sys2Proof.Machine

/-! ## What each table lists -/

theorem tableIP_perm : tableIP.entries.Perm (List.range' 1 64) := by decide

theorem tableFP_perm : tableFP.entries.Perm (List.range' 1 64) := by decide

theorem tableP_perm : tableP.entries.Perm (List.range' 1 32) := by decide

/-- `PC1` lists every key position but the multiples of 8, once (R133). -/
theorem tablePC1_perm : tablePC1.entries.Perm ((List.range' 1 64).filter fun j => j % 8 ≠ 0) := by decide

/-- `PC2` lists every position but eight, once (R134). -/
theorem tablePC2_perm :
    tablePC2.entries.Perm ((List.range' 1 56).filter fun j => j ∉ [9, 18, 22, 25, 35, 38, 43, 54]) := by decide

/-- Each row of each box is a permutation of 0..15. -/
theorem tableSBOX_row_perm : ∀ box ∈ tableSBOX, ∀ row ∈ box, row.Perm (List.range 16) := by decide

theorem tableSBOX_box_length : ∀ box ∈ tableSBOX, box.length = 4 := by decide

/-- What R146 checks of a permutation of `1..n`. -/
theorem checks_of_perm_range' {l : List Nat} {n : Nat} (h : l.Perm (List.range' 1 n)) :
    l.length = n ∧ l.sum = (List.range' 1 n).sum ∧ ∀ v < n, v + 1 ∈ l :=
  ⟨h.length_eq.trans List.length_range', h.sum_eq, fun v hv => h.mem_iff.2 (List.mem_range'_1.2 (by omega))⟩

theorem mem_tablePC1_iff {j : Nat} : j ∈ tablePC1.entries ↔ (1 ≤ j ∧ j ≤ 64) ∧ j % 8 ≠ 0 := by
  rw [tablePC1_perm.mem_iff, List.mem_filter, List.mem_range'_1, decide_eq_true_iff, Nat.lt_succ_iff]

theorem mem_tablePC2_iff {j : Nat} :
    j ∈ tablePC2.entries ↔ (1 ≤ j ∧ j ≤ 56) ∧ j ∉ [9, 18, 22, 25, 35, 38, 43, 54] := by
  rw [tablePC2_perm.mem_iff, List.mem_filter, List.mem_range'_1, decide_eq_true_iff, Nat.lt_succ_iff]

/-- What R146 checks of a box: its rows are permutations of 0..15, so they have one sum. -/
theorem tableSBOX_checks : ∀ box ∈ tableSBOX, box.length = 4 ∧ (box.map List.sum).sum = 480 ∧
    ∀ row ∈ box, row.length = 16 ∧ row.sum = 120 ∧ ∀ v < 16, v ∈ row := by
  intro box hbox
  have hrow := tableSBOX_row_perm box hbox
  have hlen := tableSBOX_box_length box hbox
  have hsum : ∀ row ∈ box, row.sum = 120 := fun row h => (hrow row h).sum_eq
  refine ⟨hlen, ?_, fun row h => ⟨(hrow row h).length_eq, hsum row h, fun v hv => (hrow row h).mem_iff.2 (List.mem_range.2 hv)⟩⟩
  rw [List.map_congr_left hsum]
  simp [hlen]

/-! ## R146 -/

/-- Settles O8: the permutations and selections by what they list, `FP` as the inverse of `IP`, and the other rows by evaluation. -/
theorem tablesHaveTheirListedProperties : Obligations.TablesHaveTheirListedProperties := by
  unfold Obligations.TablesHaveTheirListedProperties
  obtain ⟨hIPlen, hIPsum, hIPmem⟩ := checks_of_perm_range' tableIP_perm
  obtain ⟨hFPlen, hFPsum, hFPmem⟩ := checks_of_perm_range' tableFP_perm
  obtain ⟨hPlen, hPsum, hPmem⟩ := checks_of_perm_range' tableP_perm
  have hinv : ∀ k < 64, tableFP.entries[tableIP.entries.getD k 0 - 1]? = some (k + 1) := by
    intro k hk
    obtain ⟨j, hj, hback⟩ := tableFP_undoneBy_tableIP k hk
    rw [List.getD_eq_getElem?_getD, tabRead_eq_ok.1 hj]
    exact tabRead_eq_ok.1 hback
  have hPC1 : ∀ j ∈ tablePC1.entries, 1 ≤ j ∧ j ≤ 64 ∧ j % 8 ≠ 0 := fun j h => and_assoc.1 (mem_tablePC1_iff.1 h)
  have hPC2 : ∀ j ∈ tablePC2.entries, 1 ≤ j ∧ j ≤ 56 ∧ j ∉ [9, 18, 22, 25, 35, 38, 43, 54] :=
    fun j h => and_assoc.1 (mem_tablePC2_iff.1 h)
  exact ⟨hIPlen, hIPsum, hIPmem, hFPlen, hFPsum, hFPmem, hinv,
    -- PC1
    tablePC1_perm.length_eq, tablePC1_perm.sum_eq, tablePC1_perm.nodup_iff.2 ((List.nodup_range' _).filter _), hPC1,
    -- PC2, and its two halves
    tablePC2_perm.length_eq, tablePC2_perm.sum_eq, tablePC2_perm.nodup_iff.2 ((List.nodup_range' _).filter _), hPC2,
    by decide, by decide,
    -- SHIFT
    rfl, rfl, by decide, by decide,
    -- E
    rfl, rfl, by decide, by decide, rfl,
    hPlen, hPsum, hPmem,
    -- SBOX, with its position-weighted sums last
    rfl, tableSBOX_checks, by decide⟩

/-! ## The key bits that `PC1` never names -/

/-- Element `j - 1` of the sequence on a port is bit `w - j` of the port (00_scope.md R11, R13). -/
theorem toSeq_getD {w : Nat} (v : BitVec w) {j : Nat} (h1 : 1 ≤ j) (hw : j ≤ w) :
    (toSeq v).getD (j - 1) false = v.getLsbD (w - j) := by
  rw [List.getD_eq_getElem _ _ (by rw [toSeq_length]; omega)]
  exact (bitsOf_getElem v.toNat w (j - 1) (by omega)).trans (congrArg v.getLsbD (by omega))

/-- A table reads only the positions it names (R118). -/
theorem permute_congr {s t : BitSeq} {T : Table} (hlen : s.length = t.length)
    (h : ∀ j ∈ T.entries, s.getD (j - 1) false = t.getD (j - 1) false) : permute s T = permute t T := by
  simp only [permute, hlen, List.map_congr_left h]

/-- The mask keeps every key bit that `PC1` names. -/
theorem mask_getLsbD_of_mem_tablePC1 : ∀ j ∈ tablePC1.entries, (0xFEFEFEFEFEFEFEFE#64).getLsbD (64 - j) = true := by decide

/-- Keys that agree under the mask have one PC-1 output. -/
theorem permute_tablePC1_congr {k1 k2 : Key} (h : k1 &&& 0xFEFEFEFEFEFEFEFE#64 = k2 &&& 0xFEFEFEFEFEFEFEFE#64) :
    permute (toSeq k1) tablePC1 = permute (toSeq k2) tablePC1 := by
  refine permute_congr (by simp) fun j hj => ?_
  obtain ⟨⟨h1, h64⟩, -⟩ := mem_tablePC1_iff.1 hj
  have hbit := congrArg (BitVec.getLsbD · (64 - j)) h
  simp only [BitVec.getLsbD_and, mask_getLsbD_of_mem_tablePC1 j hj, Bool.and_true] at hbit
  rw [toSeq_getD k1 h1 h64, toSeq_getD k2 h1 h64, hbit]

/-- The key schedule sees a key only through its PC-1 output (R152). -/
theorem keySchedule_congr {k1 k2 : Key} (h : permute (toSeq k1) tablePC1 = permute (toSeq k2) tablePC1) (r : Nat) :
    keySchedule k1 r = keySchedule k2 r := by
  have hhalves : keyHalves k1 = keyHalves k2 := by
    simp only [keyHalves, intToBits_toNat, bind, Except.bind, h]
  simp only [keySchedule, hhalves]

/-- The loop of `process` sees a key only through its subkeys (R181). -/
theorem rounds_congr {k1 k2 : Key} (h : ∀ r, keySchedule k1 r = keySchedule k2 r) (mode : Mode) (n : Nat) (left right : BitSeq) :
    rounds k1 mode n left right = rounds k2 mode n left right := by
  induction n with
  | zero => rfl
  | succ n ih => simp only [rounds, roundBody, ih, h]

theorem process_congr {k1 k2 : Key} (h : ∀ r, keySchedule k1 r = keySchedule k2 r) (block : Block) (mode : Mode) :
    process block k1 mode = process block k2 mode := by
  simp only [process, rounds_congr h]

/-- Settles O9: `PC1` lists every position but the multiples of 8, so keys that agree elsewhere have one PC-1 output, hence the same
subkeys, hence the same results. -/
theorem ignoredKeyBitsHaveNoEffect : Obligations.IgnoredKeyBitsHaveNoEffect := by
  unfold Obligations.IgnoredKeyBitsHaveNoEffect
  refine ⟨fun j h1 h64 => ?_, fun k1 k2 h => ?_⟩
  · simp only [mem_tablePC1_iff, List.mem_cons, List.not_mem_nil, or_false]
    omega
  · have hsub := keySchedule_congr (permute_tablePC1_congr h)
    exact ⟨hsub, process_congr hsub⟩

end Sys2Proof.Machine

/-! PROOFS. The key schedule (42_key_schedule.md): its failures (R151), its closed form and incremental forms (R154, R155, R157), the
subkey of a round as one selection from the key (R156), and the command KEYSCHED (R158). -/

namespace Sys2Proof.Machine

/-! ## Failures -/

/-- Settles O10: the invalid rounds by `keySchedule_invalidRound`; every other round, an effective one among them, gives a subkey. -/
theorem keyScheduleFailsExactlyOnInvalidRounds : Obligations.KeyScheduleFailsExactlyOnInvalidRounds := by
  unfold Obligations.KeyScheduleFailsExactlyOnInvalidRounds
  intro key r
  refine ⟨keySchedule_invalidRound key, fun h => keySchedule_ok key r (by omega) (by omega), fun mode h1 h16 => ?_⟩
  obtain ⟨e1, e16⟩ := effectiveRound_range mode r h1 h16
  obtain ⟨k, hk, -⟩ := keySchedule_ok key _ e1 e16
  exact ⟨k, hk⟩

/-! ## The halves -/

/-- The subkey of a round is PC-2 of the first halves rotated by the sum of the shifts (R154). -/
theorem keySchedule_eq_rotate {key : Key} {c d : BitSeq} (hk : keyHalves key = .ok (c, d)) {r : Nat} (h1 : 1 ≤ r) (h16 : r ≤ 16) :
    keySchedule key r = permute (c.rotate (totalShift r) ++ d.rotate (totalShift r)) tablePC2 := by
  obtain ⟨c0, d0, c', d', hk0, hr, hc, hd, -, -, h⟩ := keySchedule_eq key r h1 h16
  obtain ⟨rfl, rfl⟩ := Prod.mk.inj (Except.ok.inj (hk.symm.trans hk0))
  rw [rotateHalves_eq_rotate r h16 hc hd] at hr
  obtain ⟨rfl, rfl⟩ := Prod.mk.inj (Except.ok.inj hr)
  exact h

/-- C0 and D0 are the two halves of the PC-1 output (R152). -/
theorem keyHalves_eq_append (key : Key) :
    ∃ p, permute (toSeq key) tablePC1 = .ok p ∧ keyHalves key = .ok (slice p 0 28, slice p 28 56) ∧
      (slice p 0 28).length = 28 ∧ (slice p 28 56).length = 28 ∧ slice p 0 28 ++ slice p 28 56 = p := by
  obtain ⟨p, hp, hlen, hk⟩ := keyHalves_eq key
  exact ⟨p, hp, hk, by simp [hlen], by simp [hlen], slice_append_slice p 28 hlen⟩

/-- Settles O11: `rotateHalves_eq_rotate` and `keySchedule_eq_rotate`, with the library's index form of a rotation. -/
theorem keyScheduleClosedForm : Obligations.KeyScheduleClosedForm := by
  unfold Obligations.KeyScheduleClosedForm
  refine ⟨by decide, fun key r h1 h16 => ?_⟩
  obtain ⟨p, hp, hk, hc, hd, -⟩ := keyHalves_eq_append key
  refine ⟨p, _, _, _, _, hp, rfl, rfl, rotateHalves_eq_rotate r h16 hc hd, rotateLeft_mod_28 hc _, rotateLeft_mod_28 hd _,
    fun k hk28 => ⟨?_, ?_⟩, keySchedule_eq_rotate hk h1 h16⟩
  · rw [List.getElem?_rotate (hc.symm ▸ hk28), hc]
  · rw [List.getElem?_rotate (hd.symm ▸ hk28), hd]

theorem totalShift_sixteen : totalShift 16 = 28 := rfl

/-- A full turn of a half changes nothing (R155). -/
theorem rotate_28 {s : BitSeq} (h : s.length = 28) : s.rotate 28 = s := h ▸ List.rotate_length s

/-- After sixteen rounds the halves are back (R155). -/
theorem rotateHalves_sixteen {c d : BitSeq} (hc : c.length = 28) (hd : d.length = 28) : rotateHalves 16 c d = .ok (c, d) := by
  rw [rotateHalves_eq_rotate 16 le_rfl hc hd, totalShift_sixteen, rotate_28 hc, rotate_28 hd]

/-- Settles O12: the sum of all shifts is a full turn. -/
theorem roundSixteenSubkeyNeedsNoRotation : Obligations.RoundSixteenSubkeyNeedsNoRotation := by
  unfold Obligations.RoundSixteenSubkeyNeedsNoRotation
  refine ⟨totalShift_sixteen, fun key => ?_⟩
  obtain ⟨p, hp, hk, hc, hd, happ⟩ := keyHalves_eq_append key
  refine ⟨p, hp, rotateHalves_sixteen hc hd, ?_⟩
  rw [keySchedule_eq_rotate hk (by decide) le_rfl, totalShift_sixteen, rotate_28 hc, rotate_28 hd, happ]

/-- One round up: the shift of the next round rotates on to its sum (R157). -/
theorem rotateLeft_shift_up {s : BitSeq} (hs : s.length = 28) {n : Nat} (hn : n < tableSHIFT.length) :
    rotateLeft (s.rotate (totalShift n)) tableSHIFT[n] true = .ok (s.rotate (totalShift (n + 1))) := by
  have hle := shift_in_range _ (List.getElem_mem hn)
  rw [rotateLeft_wrap (by rwa [List.length_rotate, hs]), List.rotate_rotate, totalShift_succ hn]

/-- One round down: the rest of a full turn after the shift rotates back to the sum before it (R157). -/
theorem rotateLeft_shift_down {s : BitSeq} (hs : s.length = 28) {n : Nat} (hn : n < tableSHIFT.length) :
    rotateLeft (s.rotate (totalShift (n + 1))) (28 - tableSHIFT[n]) true = .ok (s.rotate (totalShift n)) := by
  have hle := shift_in_range _ (List.getElem_mem hn)
  have hturn : totalShift n + tableSHIFT[n] + (28 - tableSHIFT[n]) = totalShift n + 28 := by omega
  rw [rotateLeft_wrap (by rw [List.length_rotate, hs]; exact Nat.sub_le _ _), List.rotate_rotate, totalShift_succ hn, hturn,
    ← List.rotate_rotate, rotate_28 (by rw [List.length_rotate, hs])]

/-- Settles O15: each incremental step, up or down, ends at the halves rotated by the sum of the round's shifts. -/
theorem incrementalKeyScheduleAgrees : Obligations.IncrementalKeyScheduleAgrees := by
  unfold Obligations.IncrementalKeyScheduleAgrees
  intro key
  obtain ⟨c0, d0, hk, hc, hd⟩ := keyHalves_ok key
  refine ⟨c0, d0, hk, rotateHalves_sixteen hc hd, fun r h1 h16 => ?_, fun r h1 h16 => ?_⟩
  · obtain ⟨n, rfl⟩ : ∃ n, r = n + 1 := ⟨r - 1, by omega⟩
    have hn : n < tableSHIFT.length := h16
    exact ⟨_, _, _, _, _, rotateHalves_eq_rotate n (by omega) hc hd, tabRead_ok _ _ hn, rotateLeft_shift_up hc hn,
      rotateLeft_shift_up hd hn, keySchedule_eq_rotate hk h1 h16⟩
  · have hn : r < tableSHIFT.length := h16
    exact ⟨_, _, _, _, _, rotateHalves_eq_rotate (r + 1) h16 hc hd, tabRead_ok _ _ hn, rotateLeft_shift_down hc hn,
      rotateLeft_shift_down hd hn, keySchedule_eq_rotate hk h1 h16.le⟩

/-! ## A subkey as one selection from the key -/

/-- Where element `p` of C || D comes from when both halves are rotated left by `n` (R156). -/
def rotatedIndex (n p : Nat) : Nat :=
  if p < 28 then (p + n) % 28 else 28 + (p - 28 + n) % 28

theorem rotatedIndex_lt (n p : Nat) : rotatedIndex n p < 56 := by
  unfold rotatedIndex
  split <;> omega

/-- A rotation keeps every element in its half. -/
theorem rotatedIndex_lt_28_iff (n p : Nat) : rotatedIndex n p < 28 ↔ p < 28 := by
  unfold rotatedIndex
  split <;> omega

theorem getElem?_rotate_append_rotate {c d : BitSeq} (hc : c.length = 28) (hd : d.length = 28) (n : Nat) {p : Nat} (hp : p < 56) :
    (c.rotate n ++ d.rotate n)[p]? = (c ++ d)[rotatedIndex n p]? := by
  have hcn : (c.rotate n).length = 28 := (List.length_rotate c n).trans hc
  unfold rotatedIndex
  split
  next h =>
    rw [List.getElem?_append_left (by omega), List.getElem?_append_left (by omega), List.getElem?_rotate (by omega), hc]
  next h =>
    rw [List.getElem?_append_right (by omega), List.getElem?_append_right (by omega), List.getElem?_rotate (by omega), hcn, hc, hd,
      Nat.add_sub_cancel_left]

/-- The key positions of the subkey of round `r`: `PC2`, the rotation of the halves and `PC1` as one table (R156). -/
def subkeyTable (r : Nat) : Table :=
  { inLen := 64
    entries := tablePC2.entries.map fun j => tablePC1.entries.getD (rotatedIndex (totalShift r) (j - 1)) 0 }

/-- Every rotated position is one of `PC1`: the default of `subkeyTable` is not taken. -/
theorem tablePC1_getElem?_rotatedIndex (n p : Nat) :
    tablePC1.entries[rotatedIndex n p]? = some (tablePC1.entries.getD (rotatedIndex n p) 0) := by
  have hlt : rotatedIndex n p < tablePC1.entries.length := rotatedIndex_lt n p
  rw [List.getD_eq_getElem _ _ hlt, List.getElem?_eq_getElem hlt]

/-- `KeySchedule` is one selection from the key (R156). -/
theorem keySchedule_eq_permute_subkeyTable (key : Key) {r : Nat} (h1 : 1 ≤ r) (h16 : r ≤ 16) :
    keySchedule key r = permute (toSeq key) (subkeyTable r) := by
  obtain ⟨p, hp, hk, hc, hd, happ⟩ := keyHalves_eq_append key
  rw [keySchedule_eq_rotate hk h1 h16, permute_ok _ tablePC2 (by simp only [List.length_append, List.length_rotate, hc, hd]; rfl),
    permute_ok _ (subkeyTable r) (toSeq_length key), subkeyTable, List.map_map]
  congr 1
  refine List.map_congr_left fun j hj => ?_
  have hj56 : j - 1 < 56 := by
    obtain ⟨⟨-, hle⟩, -⟩ := mem_tablePC2_iff.1 hj
    omega
  rw [List.getD_eq_getElem?_getD, getElem?_rotate_append_rotate hc hd _ hj56, happ, permute_getElem? _ _ _ hp,
    tablePC1_getElem?_rotatedIndex]
  rfl

/-- No entry is the position of an ignored key bit (R156 (a)). -/
theorem mem_subkeyTable {r j : Nat} (h : j ∈ (subkeyTable r).entries) : (1 ≤ j ∧ j ≤ 64) ∧ j % 8 ≠ 0 := by
  obtain ⟨p, -, rfl⟩ := List.mem_map.1 h
  exact mem_tablePC1_iff.1 (List.mem_of_getElem? (tablePC1_getElem?_rotatedIndex _ _))

/-- Entry `m` of `subkeyTable r` is read through `PC2`, the rotation and `PC1`. -/
theorem subkeyTable_getElem? (r : Nat) {m p : Nat} (h : tabRead tablePC2.entries m = .ok (p + 1)) :
    (subkeyTable r).entries[m]? = tablePC1.entries[rotatedIndex (totalShift r) p]? := by
  rw [subkeyTable, List.getElem?_map, tabRead_eq_ok.1 h, tablePC1_getElem?_rotatedIndex]
  rfl

/-- The first 24 entries of `PC2` name elements of C, the others elements of D (R134). -/
theorem tablePC2_le_28_iff : ∀ m, (h : m < tablePC2.entries.length) → (tablePC2.entries[m] ≤ 28 ↔ m < 24) := by decide

theorem tabRead_tablePC2_ok {m : Nat} (hm : m < 48) : ∃ p, tabRead tablePC2.entries m = .ok (p + 1) ∧ (p < 28 ↔ m < 24) := by
  have hlt : m < tablePC2.entries.length := hm
  have hread := tabRead_ok _ _ hlt
  have hC := tablePC2_le_28_iff m hlt
  obtain ⟨⟨hpos, -⟩, -⟩ := mem_tablePC2_iff.1 (List.getElem_mem hlt)
  rw [← Nat.sub_add_cancel hpos] at hread hC
  exact ⟨_, hread, hC⟩

theorem tabRead_tablePC1_ok {q : Nat} (hq : q < 56) :
    ∃ j, tabRead tablePC1.entries q = .ok (j + 1) ∧ j < 64 ∧ (j + 1) % 8 ≠ 0 := by
  have hlt : q < tablePC1.entries.length := hq
  have hread := tabRead_ok _ _ hlt
  obtain ⟨⟨hpos, h64⟩, h8⟩ := mem_tablePC1_iff.1 (List.getElem_mem hlt)
  rw [← Nat.sub_add_cancel hpos] at hread h64 h8
  exact ⟨_, hread, h64, h8⟩

/-- Settles O13: the subkey is the selection by `subkeyTable r`, whose entry `m` is the one the two table reads give. -/
theorem everySubkeyBitIsOneKeyBit : Obligations.EverySubkeyBitIsOneKeyBit := by
  unfold Obligations.EverySubkeyBitIsOneKeyBit
  intro key r m h1 h16 hm
  obtain ⟨k, hk, -⟩ := keySchedule_ok key r h1 h16
  obtain ⟨p, hp, hC⟩ := tabRead_tablePC2_ok hm
  obtain ⟨j, hj, hj64, hj8⟩ := tabRead_tablePC1_ok (rotatedIndex_lt (totalShift r) p)
  have hentry : (subkeyTable r).entries[m]? = some (j + 1) := (subkeyTable_getElem? r hp).trans (tabRead_eq_ok.1 hj)
  have hbit : k[m]? = (toSeq key)[j]? :=
    permute_selects ((keySchedule_eq_permute_subkeyTable key h1 h16).symm.trans hk) hentry (by simpa using hj64)
  exact ⟨k, p, _, j, hk, hp, rfl, hj, by simpa using hj64, hbit, hj8, hC.symm.trans (rotatedIndex_lt_28_iff _ p).symm⟩

/-! ## Linearity -/

/-- Mixing two ports' values mixes their sequences. -/
theorem toSeq_xor {w : Nat} (a b : BitVec w) : toSeq (a ^^^ b) = List.zipWith Bool.xor (toSeq a) (toSeq b) :=
  List.ext_getElem (by simp) fun k hk _ => by
    have hk : k < w := by simpa using hk
    simp [toSeq, bitsOf_getElem _ _ _ hk]

/-- A port whose bits are all `b` carries the sequence of `b`s. -/
theorem toSeq_eq_replicate {w : Nat} {v : BitVec w} {b : Bool} (h : ∀ i < w, v.getLsbD i = b) : toSeq v = List.replicate w b :=
  List.ext_getElem (by simp) fun k hk _ => by
    have hk : k < w := by simpa using hk
    rw [List.getElem_replicate, ← h (w - 1 - k) (by omega)]
    exact bitsOf_getElem _ _ _ hk

/-- A table with its entries in range selects `b`s from `b`s. -/
theorem permute_replicate {T : Table} (h : ∀ j ∈ T.entries, 1 ≤ j ∧ j ≤ T.inLen) (b : Bool) :
    permute (List.replicate T.inLen b) T = .ok (List.replicate T.entries.length b) := by
  rw [permute_ok _ _ List.length_replicate, ← List.map_const']
  congr 1
  refine List.map_congr_left fun j hj => ?_
  obtain ⟨h1, hle⟩ := h j hj
  rw [List.getD_eq_getElem _ _ (by rw [List.length_replicate]; omega), List.getElem_replicate]

/-- A key whose bits are all alike has subkeys whose bits are (R156 (c)). -/
theorem keySchedule_of_all {key : Key} {b : Bool} (h : ∀ i < 64, key.getLsbD i = b) {r : Nat} (h1 : 1 ≤ r) (h16 : r ≤ 16) :
    keySchedule key r = .ok (List.replicate 48 b) := by
  rw [keySchedule_eq_permute_subkeyTable key h1 h16, toSeq_eq_replicate h]
  exact permute_replicate (fun j hj => (mem_subkeyTable hj).1) b

/-- The subkey of an `xor` of keys (R156 (b)). -/
theorem keySchedule_xor {k1 k2 : Key} {r : Nat} {a b : BitSeq} (h1 : 1 ≤ r) (h16 : r ≤ 16) (ha : keySchedule k1 r = .ok a)
    (hb : keySchedule k2 r = .ok b) : keySchedule (k1 ^^^ k2) r = .ok (List.zipWith Bool.xor a b) := by
  rw [keySchedule_eq_permute_subkeyTable _ h1 h16] at ha hb ⊢
  obtain ⟨hs, rfl⟩ := permute_eq_ok.1 ha
  obtain ⟨ht, rfl⟩ := permute_eq_ok.1 hb
  rw [toSeq_xor, permute_zipWith_xor hs ht]

/-- `xor` with ones is the complement. -/
theorem zipWith_xor_replicate_true (a : BitSeq) : List.zipWith Bool.xor a (List.replicate a.length true) = complement a := by
  simp [zipWith_replicate_length, complement]

/-- Settles O14: selecting is linear, and the complement of a key is its `xor` with the all-one key. -/
theorem keyScheduleIsLinear : Obligations.KeyScheduleIsLinear := by
  unfold Obligations.KeyScheduleIsLinear
  have hones {r : Nat} (h1 : 1 ≤ r) (h16 : r ≤ 16) : keySchedule (BitVec.allOnes 64) r = .ok (List.replicate 48 true) :=
    keySchedule_of_all (fun i hi => by rw [BitVec.getLsbD_allOnes, decide_eq_true hi]) h1 h16
  refine ⟨fun r h1 h16 => ⟨keySchedule_of_all (fun i _ => BitVec.getLsbD_zero) h1 h16, hones h1 h16⟩, fun k1 k2 r h1 h16 => ?_⟩
  obtain ⟨a, ha, hla⟩ := keySchedule_ok k1 r h1 h16
  obtain ⟨b, hb, hlb⟩ := keySchedule_ok k2 r h1 h16
  refine ⟨a, b, _, _, ha, hb, keySchedule_xor h1 h16 ha hb, xorSeq_ok a b (hla.trans hlb.symm), ?_, zipWith_xor_replicate_true a⟩
  rw [← BitVec.xor_allOnes, hla]
  exact keySchedule_xor h1 h16 ha (hones h1 h16)

/-! ## KEYSCHED -/

/-- Settles O30: a ready engine accepts the command, and its accept step is the whole operation, with a valid round or an invalid
one. -/
theorem keyschedGivesTheSubkeyOrInvalidRound : Obligations.KeyschedGivesTheSubkeyOrInvalidRound := by
  unfold Obligations.KeyschedGivesTheSubkeyOrInvalidRound
  intro s key round hready
  have hexec : exec (.keysched key round) s = acceptKeysched key round s := present_ready _ s hready
  rw [hexec]
  refine ⟨fun h1 h16 => acceptKeysched_valid key round s h1 h16, fun h => acceptKeysched_invalid key round s h, fun t ht => ?_⟩
  obtain ⟨h1, h16⟩ | h : (1 ≤ round.toNat ∧ round.toNat ≤ 16) ∨ (round.toNat = 0 ∨ 16 < round.toNat) := by omega
  · obtain ⟨_, _, -, -, hacc⟩ := acceptKeysched_valid key round s h1 h16
    obtain rfl := Host.Outcome.next.inj (hacc.symm.trans ht)
    exact ⟨rfl, rfl⟩
  · obtain rfl := Host.Outcome.next.inj ((acceptKeysched_invalid key round s h).symm.trans ht)
    exact ⟨rfl, rfl⟩

end Sys2Proof.Machine

/-! PROOFS. The round function (43_feistel.md): its failures (R165), the expansion (R166), the substitution (R168), what it depends on
(R171), and FROUND (R172). -/

namespace Sys2Proof.Machine

/-! ## The four steps -/

/-- Settles O16: the check of the widths comes first, and past it the four steps of `feistelRound_eq` give values. -/
theorem feistelRoundFailsExactlyOnWrongWidths : Obligations.FeistelRoundFailsExactlyOnWrongWidths := by
  unfold Obligations.FeistelRoundFailsExactlyOnWrongWidths
  intro right subkey
  refine ⟨fun hwrong => if_neg (not_and_or.2 hwrong), fun ⟨hr, hk⟩ => ?_, fun half key => ?_⟩
  · obtain ⟨e, x, s, he, -, hx, -, hs, -, hround⟩ := feistelRound_eq right subkey hr hk
    obtain ⟨f, hf, hlen⟩ := feistelRound_ok right subkey hr hk
    exact ⟨e, x, s, f, he, hx, hs, hround.symm.trans hf, hf, hlen⟩
  · obtain ⟨f, hf, -⟩ := feistelRound_ok _ _ (toSeq_length half) (toSeq_length key)
    exact ⟨f, hf⟩

/-! ## The expansion -/

theorem tableE_in_range : ∀ j ∈ tableE.entries, 1 ≤ j ∧ j ≤ tableE.inLen := indexTables_in_range _ (by decide)

/-- Row `g` of the table names six consecutive elements, modulo 32, from the one before element `4g` (R166). -/
theorem tableE_getElem?_group : ∀ g < 8, ∀ t < 6, tableE.entries[6 * g + t]? = some ((4 * g + t + 31) % 32 + 1) := by decide

/-- Settles O17: the table's entries are in range, so each selects its element, and `tableE_getElem?_group` names them by group. -/
theorem expansionGroups : Obligations.ExpansionGroups := by
  unfold Obligations.ExpansionGroups
  intro s hs
  have he := permute_ok s tableE hs
  have hsel {k j : Nat} (hj : tableE.entries[k]? = some j) :
      (tableE.entries.map fun j => s.getD (j - 1) false)[k]? = s[j - 1]? := by
    obtain ⟨h1, hle⟩ := tableE_in_range j (List.mem_of_getElem? hj)
    have hin : tableE.inLen = 32 := rfl
    exact permute_selects he hj (by omega)
  exact ⟨_, he, List.length_map _, fun k j => hsel, fun g t hg ht => hsel (tableE_getElem?_group g hg t ht)⟩

/-! ## The substitution -/

/-- A conversion gives a value exactly where the integer fits (R110, R111). -/
theorem intToBits_eq_ok {v w : Nat} {out : BitSeq} : intToBits v w = .ok out ↔ v < 2 ^ w ∧ bitsOf v w = out := by
  unfold intToBits
  split <;> simp_all

/-- A slice of a slice is a slice of the sequence. -/
theorem slice_slice (s : BitSeq) {a b c d : Nat} (h : a + d ≤ b) : slice (slice s a b) c d = slice s (a + c) (a + d) := by
  simp only [slice, List.drop_take, List.drop_drop, List.take_take]
  congr 1
  omega

/-- An element of a slice is an element of the sequence. -/
theorem getD_slice (s : BitSeq) {a b k : Nat} (h : a + k < b) : (slice s a b).getD k false = s.getD (a + k) false := by
  simp [slice, List.getElem?_take_of_lt (show k < b - a by omega)]

/-- A slice that begins after the first of two joined sequences is a slice of the second. -/
theorem slice_append_right (s t : BitSeq) (a b : Nat) : slice (s ++ t) (s.length + a) (s.length + b) = slice t a b := by
  rw [slice, slice, List.drop_length_add_append, Nat.add_sub_add_left]

/-- The first of two joined sequences. -/
theorem slice_append_left (s t : BitSeq) : slice (s ++ t) 0 s.length = s := List.take_left

/-- A computation in two steps gives a value exactly where both steps do. -/
theorem bind_eq_ok {α β : Type} {x : Res α} {f : α → Res β} {b : β} : x >>= f = .ok b ↔ ∃ a, x = .ok a ∧ f a = .ok b := by
  cases x <;> simp [bind, Except.bind]

/-- A lookup that gives a value read one entry of its box and gives its four bits (R168). -/
theorem sbox_eq_ok {g : Nat} {grp out : BitSeq} (h : sbox g grp = .ok out) :
    ∃ v < 16, sboxRead g (sboxRow grp) (sboxCol grp) = .ok v ∧ intToBits v 4 = .ok out ∧ out.length = 4 := by
  unfold sbox at h
  split at h
  · obtain ⟨v, hread, hbits⟩ := bind_eq_ok.1 h
    obtain ⟨hlt, rfl⟩ := intToBits_eq_ok.1 hbits
    exact ⟨v, hlt, hread, hbits, bitsOf_length v 4⟩
  · nomatch h

/-- Lookups that give a value are the first lookup and the others, joined. -/
theorem sboxes_cons_eq_ok {g : Nat} {grp out : BitSeq} {gs : List BitSeq} (h : sboxes g (grp :: gs) = .ok out) :
    ∃ a b, sbox g grp = .ok a ∧ sboxes (g + 1) gs = .ok b ∧ a ++ b = out := by
  obtain ⟨a, ha, h⟩ := bind_eq_ok.1 h
  obtain ⟨b, hb, h⟩ := bind_eq_ok.1 h
  exact ⟨a, b, ha, hb, Except.ok.inj h⟩

/-- The output of the `k`-th lookup stands at elements `4k` to `4k + 3` (R168). -/
theorem sbox_of_sboxes {g k : Nat} {gs : List BitSeq} {grp out : BitSeq} (h : sboxes g gs = .ok out)
    (hgrp : gs[k]? = some grp) : sbox (g + k) grp = .ok (slice out (4 * k) (4 * k + 4)) := by
  induction gs generalizing g k out with
  | nil => simp at hgrp
  | cons first gs ih =>
    obtain ⟨a, b, ha, hb, rfl⟩ := sboxes_cons_eq_ok h
    obtain ⟨-, -, -, -, hlen⟩ := sbox_eq_ok ha
    cases k with
    | zero =>
      obtain rfl : first = grp := by simpa using hgrp
      have hfirst : slice (a ++ b) 0 4 = a := hlen ▸ slice_append_left a b
      rw [Nat.add_zero, ha, Nat.mul_zero, Nat.zero_add, hfirst]
    | succ k =>
      have hrest := ih hb (by simpa using hgrp)
      have hpos : 4 * (k + 1) = a.length + 4 * k := by omega
      rw [hpos, Nat.add_assoc, slice_append_right, ← hrest, Nat.add_right_comm, Nat.add_assoc]

/-- Group `g` of a substitution that gives a value is looked up in box `g` (R168). -/
theorem sbox_of_substitute {x s : BitSeq} (hx : x.length = 48) (h : substitute x = .ok s) {g : Nat} (hg : g < 8) :
    sbox g (slice x (6 * g) (6 * g + 6)) = .ok (slice s (4 * g) (4 * g + 4)) := by
  obtain ⟨groups, hcut, hlookups⟩ := bind_eq_ok.1 h
  obtain rfl := Except.ok.inj ((cut_ok x 6 8 hx).symm.trans hcut)
  have hgroup : ((List.range 8).map fun g => slice x (6 * g) (6 * g + 6))[g]? = some (slice x (6 * g) (6 * g + 6)) := by
    simp [List.getElem?_range hg]
  simpa using sbox_of_sboxes hlookups hgroup

/-- Settles O19: `sbox_of_substitute`, with row and column of group `g` read from the whole sequence. -/
theorem substitutionIsEightLookups : Obligations.SubstitutionIsEightLookups := by
  unfold Obligations.SubstitutionIsEightLookups
  intro x hx
  obtain ⟨s, hs, hlen⟩ := substitute_ok x hx
  refine ⟨s, hs, hlen, fun g hg => ?_⟩
  obtain ⟨v, hv, hread, hbits, -⟩ := sbox_eq_ok (sbox_of_substitute hx hs hg)
  rw [sboxRow, sboxCol, getD_slice x (by omega), getD_slice x (by omega), slice_slice x (by omega)] at hread
  exact ⟨v, hv, hread, hbits⟩

/-! ## What the result depends on -/

/-- Past the expansion the operands enter only in the key mixing (R170). -/
theorem feistelRound_of_expansion {right subkey e : BitSeq} (hr : right.length = 32) (hk : subkey.length = 48)
    (he : permute right tableE = .ok e) :
    feistelRound right subkey = (do
      let x ← xorSeq e subkey
      let s ← substitute x
      permute s tableP) := by
  rw [feistelRound, if_pos ⟨hr, hk⟩, he]
  rfl

/-- Operands with one mixed sequence have one result (R171 (a)). -/
theorem feistelRound_congr {r1 k1 r2 k2 e1 e2 : BitSeq} (hr1 : r1.length = 32) (hk1 : k1.length = 48) (hr2 : r2.length = 32)
    (hk2 : k2.length = 48) (he1 : permute r1 tableE = .ok e1) (he2 : permute r2 tableE = .ok e2)
    (hmixed : xorSeq e1 k1 = xorSeq e2 k2) : feistelRound r1 k1 = feistelRound r2 k2 := by
  rw [feistelRound_of_expansion hr1 hk1 he1, feistelRound_of_expansion hr2 hk2 he2, hmixed]

@[simp] theorem complement_length (s : BitSeq) : (complement s).length = s.length := List.length_map _

/-- A table with its entries in range selects complements from a complement. -/
theorem permute_complement {s out : BitSeq} {T : Table} (hT : ∀ j ∈ T.entries, 1 ≤ j ∧ j ≤ T.inLen)
    (h : permute s T = .ok out) : permute (complement s) T = .ok (complement out) := by
  obtain ⟨hs, rfl⟩ := permute_eq_ok.1 h
  rw [permute_ok _ T (by simpa using hs), complement, complement, List.map_map]
  congr 1
  refine List.map_congr_left fun j hj => ?_
  obtain ⟨h1, hle⟩ := hT j hj
  have hin : j - 1 < s.length := by omega
  simp [hin]

/-- Complementing both operands of `xor` changes nothing (R171 (b)). -/
theorem xorSeq_complement (a b : BitSeq) : xorSeq (complement a) (complement b) = xorSeq a b := by
  simp [xorSeq, complement, List.zipWith_map]

/-- Settles O20: `feistelRound_congr`, and that complementing both operands complements both sides of the key mixing. -/
theorem feistelRoundDependsOnTheMixedSequence : Obligations.FeistelRoundDependsOnTheMixedSequence := by
  unfold Obligations.FeistelRoundDependsOnTheMixedSequence
  refine ⟨fun _ _ _ _ _ _ => feistelRound_congr, fun r k hr hk => ?_⟩
  have he := permute_ok r tableE hr
  exact feistelRound_congr (by simpa using hr) (by simpa using hk) hr hk (permute_complement tableE_in_range he) he
    (xorSeq_complement _ k)

/-! ## FROUND -/

/-- Settles O31: a ready engine accepts the command, and its accept step is the whole operation. -/
theorem froundGivesTheRoundFunction : Obligations.FroundGivesTheRoundFunction := by
  unfold Obligations.FroundGivesTheRoundFunction
  intro s half subkey hready
  have hexec : exec (.fround half subkey) s = acceptFround half subkey s := present_ready _ s hready
  obtain ⟨f, v, hf, hv, hacc⟩ := acceptFround_next half subkey s
  refine ⟨f, v, hf, hv, hexec.trans hacc, fun t ht => ?_⟩
  obtain rfl := Host.Outcome.next.inj ((hexec.trans hacc).symm.trans ht)
  exact ⟨rfl, rfl⟩

end Sys2Proof.Machine

/-! PROOFS. The function `process` (44_engine.md R180, R181): it is total (R192), each mode undoes the other (R191), and the two
properties of R194: complementation, and equal subkeys. -/

namespace Sys2Proof.Machine

/-! ## What each part gives when it gives a value -/

/-- Steps 1 and 2 of R181: the two halves, joined, are the permuted block. -/
theorem initialHalves_eq_ok {block : Block} {l r : BitSeq} :
    initialHalves block = .ok (l, r) ↔ l.length = 32 ∧ r.length = 32 ∧ permute (toSeq block) tableIP = .ok (l ++ r) := by
  obtain ⟨p, hp, hlen, hinit⟩ := initialHalves_ok block
  rw [hinit, hp]
  constructor
  · intro h
    obtain ⟨rfl, rfl⟩ := Prod.mk.inj (Except.ok.inj h)
    exact ⟨by simp [hlen], by simp [hlen], congrArg _ (slice_append_slice p 32 hlen).symm⟩
  · rintro ⟨hl, hr, h⟩
    obtain rfl := Except.ok.inj h
    have hleft : slice (l ++ r) 0 32 = l := hl ▸ slice_append_left l r
    have hright : slice (l ++ r) 32 64 = r := by
      rw [slice, List.drop_left' hl, List.take_of_length_le (by rw [hr])]
    rw [hleft, hright]

/-- A register holds a sequence exactly where the sequence is the register's own (00_scope.md R13). -/
theorem pack_eq_ok {w : Nat} {s : BitSeq} {v : BitVec w} : pack w s = .ok v ↔ s = toSeq v := by
  refine ⟨fun h => ?_, fun h => h ▸ pack_toSeq v⟩
  by_cases hlen : s.length = w
  · obtain ⟨u, hu, rfl⟩ := pack_spec w s hlen
    rw [Except.ok.inj (hu.symm.trans h)]
  · rw [pack, if_neg hlen] at h
    nomatch h

/-- Steps 4 to 6 of R181: the result is the final permutation of `right` then `left`. -/
theorem finalBlock_eq_ok {l r : BitSeq} {v : Block} :
    finalBlock l r = .ok v ↔ permute (r ++ l) tableFP = .ok (toSeq v) := by
  simp only [finalBlock, bind_eq_ok, pack_eq_ok, exists_eq_right]

/-- The loop body (R187). -/
theorem roundBody_eq_ok {key : Key} {r : Nat} {left right left' right' : BitSeq} :
    roundBody key r left right = .ok (left', right') ↔ ∃ k f, keySchedule key r = .ok k ∧ feistelRound right k = .ok f ∧
      xorSeq f left = .ok right' ∧ right = left' := by
  simp [roundBody, bind_eq_ok, pure, Except.pure]

/-- One more iteration of the loop (R181). -/
theorem rounds_succ_eq_ok {key : Key} {mode : Mode} {n : Nat} {l0 r0 : BitSeq} {halves : BitSeq × BitSeq} :
    rounds key mode (n + 1) l0 r0 = .ok halves ↔
      ∃ l r, rounds key mode n l0 r0 = .ok (l, r) ∧ roundBody key (effectiveRound mode (n + 1)) l r = .ok halves := by
  simp only [rounds, bind_eq_ok, Prod.exists]

/-- The three parts of `process` (R181). -/
theorem process_eq_ok {block v : Block} {key : Key} {mode : Mode} :
    process block key mode = .ok v ↔ ∃ l0 r0 l r, initialHalves block = .ok (l0, r0) ∧
      rounds key mode Config.rounds l0 r0 = .ok (l, r) ∧ finalBlock l r = .ok v := by
  simp only [process, bind_eq_ok, Prod.exists, exists_and_left]

/-! ## Totality -/

/-- The loop gives halves of 32 elements, up to its last iteration. -/
theorem rounds_ok (key : Key) (mode : Mode) {n : Nat} (hn : n ≤ 16) {l0 r0 : BitSeq} (hl0 : l0.length = 32)
    (hr0 : r0.length = 32) :
    ∃ l r, rounds key mode n l0 r0 = .ok (l, r) ∧ l.length = 32 ∧ r.length = 32 := by
  induction n with
  | zero => exact ⟨l0, r0, rfl, hl0, hr0⟩
  | succ n ih =>
    obtain ⟨l, r, hloop, hl, hr⟩ := ih (Nat.le_of_succ_le hn)
    obtain ⟨h1, h16⟩ := effectiveRound_range mode (n + 1) (Nat.succ_pos n) hn
    obtain ⟨_, f, -, -, -, hf, hbody⟩ := roundBody_ok key _ l r h1 h16 hl hr
    exact ⟨_, _, rounds_succ_eq_ok.2 ⟨l, r, hloop, hbody⟩, hr, by simp [hf, hl]⟩

/-- Settles O21: each of the three parts gives halves or a block of the length the next one takes. -/
theorem processIsTotal : Obligations.ProcessIsTotal := by
  unfold Obligations.ProcessIsTotal
  intro block key mode
  obtain ⟨p, -, hlen, hinit⟩ := initialHalves_ok block
  obtain ⟨l, r, hloop, hl, hr⟩ :=
    rounds_ok key mode le_rfl (l0 := slice p 0 32) (r0 := slice p 32 64) (by simp [hlen]) (by simp [hlen])
  obtain ⟨_, -, -, hfinal⟩ := finalBlock_ok l r hl hr
  exact ⟨_, process_eq_ok.2 ⟨_, _, l, r, hinit, hloop, hfinal⟩⟩

/-! ## The round trip -/

/-- The loop body on the exchanged halves undoes itself, whatever the round function gives (R191). -/
theorem roundBody_undo {key : Key} {r : Nat} {left right left' right' : BitSeq}
    (h : roundBody key r left right = .ok (left', right')) : roundBody key r right' left' = .ok (right, left) := by
  obtain ⟨k, f, hk, hf, hx, rfl⟩ := roundBody_eq_ok.1 h
  refine roundBody_eq_ok.2 ⟨k, f, hk, hf, ?_, rfl⟩
  by_cases hlen : f.length = left.length
  · obtain rfl := Except.ok.inj ((xorSeq_ok f left hlen).symm.trans hx)
    rw [xorSeq_ok _ _ (by simp [hlen]), List.zipWith_comm_of_comm Bool.xor_comm (l := f) (l' := left),
      List.zipWith_comm_of_comm Bool.xor_comm, zipWith_xor_cancel hlen.symm]
  · rw [xorSeq_lengthMismatch hlen] at hx
    nomatch hx

/-- The other direction takes the round numbers in reverse order (R88). -/
theorem effectiveRound_otherMode (mode : Mode) {i j : Nat} (h : i + j = 17) :
    effectiveRound (otherMode mode) i = effectiveRound mode j := by
  cases mode <;> simp only [otherMode, effectiveRound] <;> omega

/-- From the exchanged halves at the end of the loop, `k` iterations in the other direction lead back to the exchanged halves `k`
iterations before the end (R191). -/
theorem rounds_undo {key : Key} {mode : Mode} {l0 r0 l r : BitSeq} (h : rounds key mode 16 l0 r0 = .ok (l, r)) {k : Nat}
    (hk : k ≤ 16) :
    ∃ l' r', rounds key mode (16 - k) l0 r0 = .ok (l', r') ∧ rounds key (otherMode mode) k r l = .ok (r', l') := by
  induction k with
  | zero => exact ⟨l, r, h, rfl⟩
  | succ k ih =>
    obtain ⟨l1, r1, hloop, hback⟩ := ih (Nat.le_of_succ_le hk)
    rw [show 16 - k = 16 - (k + 1) + 1 by omega] at hloop
    obtain ⟨l', r', hloop', hbody⟩ := rounds_succ_eq_ok.1 hloop
    rw [← effectiveRound_otherMode mode (show k + 1 + (16 - (k + 1) + 1) = 17 by omega)] at hbody
    exact ⟨l', r', hloop', rounds_succ_eq_ok.2 ⟨r1, l1, hback, roundBody_undo hbody⟩⟩

/-- The initial permutation of a result gives the halves it was made of, `right` first (R122, R184). -/
theorem initialHalves_of_finalBlock {l r : BitSeq} {v : Block} (hl : l.length = 32) (hr : r.length = 32)
    (h : finalBlock l r = .ok v) : initialHalves v = .ok (r, l) := by
  have hlen : (r ++ l).length = tableFP.inLen := by simp [hl, hr, tableFP]
  obtain ⟨out, hout, hback⟩ := tableFP_undoneBy_tableIP.permute_permute rfl rfl hlen
  obtain rfl := Except.ok.inj (hout.symm.trans (finalBlock_eq_ok.1 h))
  exact initialHalves_eq_ok.2 ⟨hr, hl, hback⟩

/-- The final permutation of a block's exchanged halves gives the block (R122, R184). -/
theorem finalBlock_of_initialHalves {block : Block} {l r : BitSeq} (h : initialHalves block = .ok (l, r)) :
    finalBlock r l = .ok block := by
  obtain ⟨-, -, hp⟩ := initialHalves_eq_ok.1 h
  obtain ⟨p, hp', hback⟩ := tableIP_undoneBy_tableFP.permute_permute rfl rfl (toSeq_length block)
  obtain rfl := Except.ok.inj (hp'.symm.trans hp)
  exact finalBlock_eq_ok.2 hback

/-- `process` in the other mode gives the block back (R191). -/
theorem process_otherMode {block v : Block} {key : Key} {mode : Mode} (h : process block key mode = .ok v) :
    process v key (otherMode mode) = .ok block := by
  obtain ⟨l0, r0, l, r, hinit, hloop, hfinal⟩ := process_eq_ok.1 h
  obtain ⟨hl0, hr0, -⟩ := initialHalves_eq_ok.1 hinit
  obtain ⟨_, _, hloop', hl, hr⟩ := rounds_ok key mode le_rfl hl0 hr0
  obtain ⟨rfl, rfl⟩ := Prod.mk.inj (Except.ok.inj (hloop.symm.trans hloop'))
  obtain ⟨_, _, hstart, hback⟩ := rounds_undo hloop le_rfl
  obtain ⟨rfl, rfl⟩ := Prod.mk.inj (Except.ok.inj hstart)
  exact process_eq_ok.2 ⟨r, l, r0, l0, initialHalves_of_finalBlock hl hr hfinal, hback, finalBlock_of_initialHalves hinit⟩

@[simp] theorem otherMode_otherMode (mode : Mode) : otherMode (otherMode mode) = mode := by cases mode <;> rfl

/-- Settles O22: `process_otherMode` is the round trip; it makes `process` injective, and on the other
mode it makes it onto. -/
theorem processRoundTrips : Obligations.ProcessRoundTrips := by
  unfold Obligations.ProcessRoundTrips
  intro key mode
  refine ⟨fun block => ?_, fun b1 b2 v h1 h2 => ?_, fun c => ?_⟩
  · obtain ⟨v, hv⟩ := processIsTotal block key mode
    exact ⟨v, hv, process_otherMode hv⟩
  · exact Except.ok.inj ((process_otherMode h1).symm.trans (process_otherMode h2))
  · obtain ⟨block, hblock⟩ := processIsTotal c key (otherMode mode)
    exact ⟨block, by simpa using process_otherMode hblock⟩

/-! ## Complementation -/

/-- Complementing a port's value complements its sequence. -/
theorem toSeq_complement {w : Nat} (v : BitVec w) : toSeq (~~~v) = complement (toSeq v) := by
  have hones : toSeq (BitVec.allOnes w) = List.replicate (toSeq v).length true := by
    rw [toSeq_length]
    exact toSeq_eq_replicate fun i hi => by rw [BitVec.getLsbD_allOnes, decide_eq_true hi]
  rw [← BitVec.xor_allOnes, toSeq_xor, hones, zipWith_xor_replicate_true]

theorem complement_append (s t : BitSeq) : complement (s ++ t) = complement s ++ complement t := List.map_append

/-- Complementing one operand of `xor` complements the result. -/
theorem xorSeq_complement_right {a b x : BitSeq} (h : xorSeq a b = .ok x) : xorSeq a (complement b) = .ok (complement x) := by
  by_cases hlen : a.length = b.length
  · obtain rfl := Except.ok.inj ((xorSeq_ok a b hlen).symm.trans h)
    rw [xorSeq_ok _ _ (by simp [hlen])]
    simp [complement, List.zipWith_map_right, List.map_zipWith]
  · rw [xorSeq_lengthMismatch hlen] at h
    nomatch h

/-- A round that has a subkey is one of 1..16 (42_key_schedule.md R151). -/
theorem round_range_of_keySchedule {key : Key} {r : Nat} {k : BitSeq} (h : keySchedule key r = .ok k) : 1 ≤ r ∧ r ≤ 16 := by
  by_contra hbad
  rw [keySchedule_invalidRound key (by omega)] at h
  nomatch h

/-- The subkeys of the complemented key (R156 (b)). -/
theorem keySchedule_complement {key : Key} {r : Nat} {k : BitSeq} (h : keySchedule key r = .ok k) :
    keySchedule (~~~key) r = .ok (complement k) := by
  obtain ⟨h1, h16⟩ := round_range_of_keySchedule h
  rw [keySchedule_eq_permute_subkeyTable _ h1 h16] at h ⊢
  rw [toSeq_complement]
  exact permute_complement (fun j hj => (mem_subkeyTable hj).1) h

/-- Operands with a value of the round function have its widths (43_feistel.md R165). -/
theorem widths_of_feistelRound {right subkey f : BitSeq} (h : feistelRound right subkey = .ok f) :
    right.length = 32 ∧ subkey.length = 48 := by
  by_contra hbad
  rw [feistelRound, if_neg hbad] at h
  nomatch h

/-- The round function does not see the complement (R171 (b)), so the loop body passes it on (R194 (b)). -/
theorem roundBody_complement {key : Key} {r : Nat} {left right left' right' : BitSeq}
    (h : roundBody key r left right = .ok (left', right')) :
    roundBody (~~~key) r (complement left) (complement right) = .ok (complement left', complement right') := by
  obtain ⟨k, f, hk, hf, hx, rfl⟩ := roundBody_eq_ok.1 h
  obtain ⟨hright, hsubkey⟩ := widths_of_feistelRound hf
  obtain ⟨-, hcomplement⟩ := feistelRoundDependsOnTheMixedSequence
  exact roundBody_eq_ok.2 ⟨_, f, keySchedule_complement hk, (hcomplement _ k hright hsubkey).trans hf,
    xorSeq_complement_right hx, rfl⟩

theorem rounds_complement {key : Key} {mode : Mode} {n : Nat} {l0 r0 l r : BitSeq} (h : rounds key mode n l0 r0 = .ok (l, r)) :
    rounds (~~~key) mode n (complement l0) (complement r0) = .ok (complement l, complement r) := by
  induction n generalizing l r with
  | zero =>
    obtain ⟨rfl, rfl⟩ := Prod.mk.inj (Except.ok.inj h)
    rfl
  | succ n ih =>
    obtain ⟨l1, r1, hloop, hbody⟩ := rounds_succ_eq_ok.1 h
    exact rounds_succ_eq_ok.2 ⟨_, _, ih hloop, roundBody_complement hbody⟩

theorem initialHalves_complement {block : Block} {l r : BitSeq} (h : initialHalves block = .ok (l, r)) :
    initialHalves (~~~block) = .ok (complement l, complement r) := by
  obtain ⟨hl, hr, hp⟩ := initialHalves_eq_ok.1 h
  refine initialHalves_eq_ok.2 ⟨by simpa using hl, by simpa using hr, ?_⟩
  rw [toSeq_complement, ← complement_append]
  exact permute_complement (indexTables_in_range tableIP (by decide)) hp

theorem finalBlock_complement {l r : BitSeq} {v : Block} (h : finalBlock l r = .ok v) :
    finalBlock (complement l) (complement r) = .ok (~~~v) := by
  rw [finalBlock_eq_ok, toSeq_complement, ← complement_append]
  exact permute_complement (indexTables_in_range tableFP (by decide)) (finalBlock_eq_ok.1 h)

/-- Settles O23: each of the three parts of `process` passes the complement on. -/
theorem processComplementation : Obligations.ProcessComplementation := by
  unfold Obligations.ProcessComplementation
  intro block key mode v h
  obtain ⟨l0, r0, l, r, hinit, hloop, hfinal⟩ := process_eq_ok.1 h
  exact process_eq_ok.2 ⟨_, _, _, _, initialHalves_complement hinit, rounds_complement hloop, finalBlock_complement hfinal⟩

/-! ## Equal subkeys -/

/-- The loop body sees the round number only through its subkey. -/
theorem roundBody_congr {key : Key} {r1 r2 : Nat} (h : keySchedule key r1 = keySchedule key r2) (left right : BitSeq) :
    roundBody key r1 left right = roundBody key r2 left right := by
  rw [roundBody, roundBody, h]

/-- With equal subkeys the order of the rounds does not show (R194 (c)). -/
theorem rounds_of_equal_subkeys {key : Key} (h : ∀ r, 1 ≤ r → r ≤ 16 → keySchedule key r = keySchedule key 1) {n : Nat}
    (hn : n ≤ 16) (l0 r0 : BitSeq) : rounds key .encipher n l0 r0 = rounds key .decipher n l0 r0 := by
  have hround (mode : Mode) {i : Nat} (h1 : 1 ≤ i) (h16 : i ≤ 16) :
      keySchedule key (effectiveRound mode i) = keySchedule key 1 :=
    have ⟨e1, e16⟩ := effectiveRound_range mode i h1 h16
    h _ e1 e16
  induction n with
  | zero => rfl
  | succ n ih =>
    have hsubkey := (hround .encipher (Nat.succ_pos n) hn).trans (hround .decipher (Nat.succ_pos n) hn).symm
    simp only [rounds, ih (Nat.le_of_succ_le hn), roundBody_congr hsubkey]

/-- Settles O24: the loops of the two modes are one, so deciphering, which undoes enciphering, is enciphering again. -/
theorem equalSubkeysMakeTheModesCoincide : Obligations.EqualSubkeysMakeTheModesCoincide := by
  unfold Obligations.EqualSubkeysMakeTheModesCoincide
  intro key h
  have hmodes (block : Block) : process block key .encipher = process block key .decipher := by
    have hloop : rounds key .encipher Config.rounds = rounds key .decipher Config.rounds :=
      funext fun l0 => funext fun r0 => rounds_of_equal_subkeys h le_rfl l0 r0
    rw [process, process, hloop]
  intro block
  obtain ⟨v, hv⟩ := processIsTotal block key .encipher
  have hback : process v key .decipher = .ok block := process_otherMode (mode := .encipher) hv
  exact ⟨hmodes block, v, hv, (hmodes v).trans hback⟩

end Sys2Proof.Machine

/-! PROOFS. The steps of the engine (44_engine.md section 3): each row of the step relation with its frame (R186 to R189), the eighteen
steps of a process command as `process` (R190), and that an outcome depends on the command alone (R193). -/

namespace Sys2Proof.Machine

/-! ## The rows of a process command -/

/-- The accept of a process command loads the halves that `process` starts from (R186). -/
theorem acceptProcess_of_initialHalves {block : Block} {l r : Half} (h : initialHalves block = .ok (toSeq l, toSeq r)) (op : BitVec 2)
    (key : Key) (s : State) :
    acceptProcess op block key s = .next { beginAccept op s with key := key, l := l, r := r, i := 1#5, st := .busy } := by
  simp [acceptProcess, h, pack_toSeq, bind, Except.bind, pure, Except.pure]

/-- Settles O29: both commands are accepted in a ready engine, with one pair of halves. -/
theorem processCommandsAreAccepted : Obligations.ProcessCommandsAreAccepted := by
  unfold Obligations.ProcessCommandsAreAccepted
  intro s block key hready
  obtain ⟨p, hp, hlen, hinit⟩ := initialHalves_ok block
  obtain ⟨l, -, hl⟩ := pack_spec 32 (slice p 0 32) (by simp [hlen])
  obtain ⟨r, -, hr⟩ := pack_spec 32 (slice p 32 64) (by simp [hlen])
  rw [← hl, ← hr] at hinit
  exact ⟨p, l, r, hp, hl, hr, (present_ready _ s hready).trans (acceptProcess_of_initialHalves hinit Config.opEncipher key s),
    (present_ready _ s hready).trans (acceptProcess_of_initialHalves hinit Config.opDecipher key s)⟩

/-- The effective round number by `OP[0]` (10_state.md R25, 30_encoding.md R88). -/
theorem effectiveRound_modeOf (op : BitVec 2) (i : Nat) :
    effectiveRound (modeOf op) i = if op.getLsbD 0 = false then i else 17 - i := by
  cases h : op.getLsbD 0 with
  | true => rw [modeOf, h]; rfl
  | false => rw [modeOf, h]; rfl

/-- Settles O34: the round step is the loop body on the registers. -/
theorem roundStepIsOneIteration : Obligations.RoundStepIsOneIteration := by
  unfold Obligations.RoundStepIsOneIteration
  intro s hrst hb h1 h16
  obtain ⟨r, hbody, hround⟩ := roundStep_next s h1 h16
  obtain ⟨k, f, hk, hf, hx, -⟩ := roundBody_eq_ok.1 hbody
  rw [effectiveRound_modeOf] at hk
  exact ⟨_, k, f, _, r, rfl, hk, hf, hx, rfl, i_succ_toNat s h16, by rw [react_busy s hrst hb, advance_round s h16, hround]⟩

/-- Settles O35: the final step is steps 4 to 6 of `process` on the registers. -/
theorem finalStepWritesTheResult : Obligations.FinalStepWritesTheResult := by
  unfold Obligations.FinalStepWritesTheResult
  intro s hrst hb h17
  obtain ⟨v, hv, hfinal⟩ := finalStep_next s
  exact ⟨_, v, finalBlock_eq_ok.1 hv, (toSeq_toNat v).symm, by rw [react_busy s hrst hb, advance_final s h17, hfinal]⟩

/-- Above 17 neither the round step nor the final step is enabled (log 7). -/
theorem advance_beyond {s : State} (h : 17 < s.i.toNat) : advance s = .fault .noStepEnabled := by
  have hround : ¬ s.i.toNat ≤ Config.rounds := by simp only [Config.rounds]; omega
  have hfinal : s.i.toNat ≠ Config.rounds + 1 := by simp only [Config.rounds]; omega
  rw [advance, if_neg hround, if_neg hfinal]

/-- A fault of the reaction is a fault of the step. -/
theorem step_of_react_fault {s : State} {e : Fault} (h : react s = .fault e) : step s = .fault e := by
  rw [step, h, onNext_fault]

/-- A refusal by the reaction is a refusal by the step. -/
theorem step_of_react_refused {s : State} {e : Refusal} (h : react s = .refused e) : step s = .refused e := by
  rw [step, h, onNext_refused]

/-- Settles O44: a busy engine takes only the steps of `advance`, and above 17 there is none. -/
theorem busyBeyondTheLoopStops : Obligations.BusyBeyondTheLoopStops := by
  unfold Obligations.BusyBeyondTheLoopStops
  intro s hrst hb hi
  exact step_of_react_fault ((react_busy s hrst hb).trans (advance_beyond hi))

/-! ## The step relation -/

/-- Every command presented to a ready engine has its accept step (R28, R91). -/
theorem exec_ready_next (i : Instr) {s : State} (h : Ready s) : ∃ t, exec i s = .next t := by
  cases i with
  | encipher block key =>
    obtain ⟨t, hacc, -⟩ := acceptProcess_starts_loop Config.opEncipher block key s
    exact ⟨t, (present_ready _ s h).trans hacc⟩
  | decipher block key =>
    obtain ⟨t, hacc, -⟩ := acceptProcess_starts_loop Config.opDecipher block key s
    exact ⟨t, (present_ready _ s h).trans hacc⟩
  | keysched key round =>
    obtain ⟨h1, h16⟩ | hbad : (1 ≤ round.toNat ∧ round.toNat ≤ 16) ∨ (round.toNat = 0 ∨ 16 < round.toNat) := by omega
    · obtain ⟨_, _, -, -, hacc⟩ := acceptKeysched_valid key round s h1 h16
      exact ⟨_, (present_ready _ s h).trans hacc⟩
    · exact ⟨_, (present_ready _ s h).trans (acceptKeysched_invalid key round s hbad)⟩
  | fround half subkey =>
    obtain ⟨_, _, -, -, hacc⟩ := acceptFround_next half subkey s
    exact ⟨_, (present_ready _ s h).trans hacc⟩

/-- The next `ST` of each accept, by the opcode and the round on the ports (R189). -/
theorem AcceptStep.st {s t : State} (h : AcceptStep s t) :
    ((s.pins.cmd.op = 0b00#2 ∨ s.pins.cmd.op = 0b01#2) → t.st = .busy) ∧
    (s.pins.cmd.op = 0b10#2 → 1 ≤ s.pins.cmd.roundIn.toNat → s.pins.cmd.roundIn.toNat ≤ 16 → t.st = .done) ∧
    (s.pins.cmd.op = 0b10#2 → (s.pins.cmd.roundIn.toNat = 0 ∨ 17 ≤ s.pins.cmd.roundIn.toNat) → t.st = .fault) ∧
    (s.pins.cmd.op = 0b11#2 → t.st = .done) := by
  cases h with
  | process hop l r hinit =>
    refine ⟨fun _ => rfl, fun h => ?_, fun h => ?_, fun h => ?_⟩ <;> simp [h] at hop
  | keysched hop h1 h16 v hkey =>
    refine ⟨fun h => ?_, fun _ _ _ => rfl, fun _ hbad => by omega, fun _ => rfl⟩
    simp [hop, Config.opKeysched] at h
  | invalidRound hop hround =>
    refine ⟨fun h => ?_, fun _ h1 h16 => by omega, fun _ _ => rfl, fun h => ?_⟩ <;> simp [hop, Config.opKeysched] at h
  | fround hop v hround =>
    refine ⟨fun h => ?_, fun _ _ _ => rfl, fun h => ?_, fun _ => rfl⟩ <;> simp [hop, Config.opFround] at h

/-- Settles O36: the reaction in each row of the relation; the clauses of the other rows do not apply. -/
theorem stepRelation : Obligations.StepRelation := by
  unfold Obligations.StepRelation
  intro s hinv
  obtain ⟨hbusy, -, -, -⟩ := hinv
  cases hr : s.pins.rst with
  | true => exact ⟨_, react_reset s hr, by simp⟩
  | false =>
    by_cases hb : s.st = .busy
    · obtain ⟨-, h1, h17, -⟩ := hbusy hb
      obtain h16 | hlast : s.i.toNat ≤ 16 ∨ s.i.toNat = 17 := by omega
      · obtain ⟨_, -, hround⟩ := roundStep_next s h1 h16
        refine ⟨_, (react_busy s hr hb).trans ((advance_round s h16).trans hround), ?_⟩
        simp [hb, hround, show s.i.toNat ≠ 17 by omega]
      · obtain ⟨_, -, hfinal⟩ := finalStep_next s
        refine ⟨_, (react_busy s hr hb).trans ((advance_final s hlast).trans hfinal), ?_⟩
        simp [hb, hfinal, hlast]
    cases hs : s.pins.start with
    | false => exact ⟨s, react_quiet s hb hr hs, by simp [hb]⟩
    | true =>
      obtain ⟨t, hexec⟩ := exec_ready_next (decode s.pins.cmd) hb
      refine ⟨t, (react_presented s hr hs).trans hexec, by simp, by simp, fun _ _ _ => ⟨hexec, ?_⟩, ?_, ?_⟩
      · exact (acceptStep_of_exec hb hexec).st
      · exact fun _ h => absurd h hb
      · exact fun _ h => absurd h hb

/-! ## A step as the decoded command -/

/-- No register of the engine changes when the host's levels move on (log 2). -/
theorem sameEngine_nextPins (t : State) : SameEngine t (nextPins t) := by simp [SameEngine]

/-- Settles O37: the decoder gives the command back, and the step is its `exec` followed by the host's next levels. -/
theorem stepRunsTheDecodedCommand : Obligations.StepRunsTheDecodedCommand := by
  unfold Obligations.StepRunsTheDecodedCommand
  intro s i c hpins
  have hdecode : decode s.pins.cmd = i := by rw [hpins, decode_encodeOnto]
  have hreact : react s = exec i s := by rw [react_presented s (by rw [hpins]) (by rw [hpins]), hdecode]
  refine ⟨hdecode, hreact, fun t h => step_of_react (hreact.trans h), fun e h => step_of_react_fault (hreact.trans h),
    fun e h => step_of_react_refused (hreact.trans h), fun t => ⟨sameEngine_nextPins t, nextPins_of_later_nil t, ?_⟩⟩
  intro p rest h
  simp [nextPins, h]

/-! ## What the host drives -/

/-- No reaction of the engine writes the ports. -/
theorem ReactStep.host_kept {s t : State} (h : ReactStep s t) : t.pins = s.pins ∧ t.later = s.later := by
  cases h with
  | reset hr => exact ⟨rfl, rfl⟩
  | quiet hr hrdy hs => exact ⟨rfl, rfl⟩
  | accept hr hrdy hs ht => cases ht <;> exact ⟨rfl, rfl⟩
  | busy hr hb ht => cases ht <;> exact ⟨rfl, rfl⟩

/-- A host that does not reset for `n + 1` steps does not reset for the `n` steps after the first. -/
theorem noResetFor_of_step {n : Nat} {s t : State} (h : NoResetFor (n + 1) s) (hstep : step s = .next t) : NoResetFor n t := by
  obtain ⟨u, hu, rfl⟩ := react_of_step hstep
  obtain ⟨hpins, hlater⟩ := (reactStep_of_react hu).host_kept
  refine noResetFor_nextPins ?_
  rwa [NoResetFor, hpins, hlater]

/-! ## The eighteen steps -/

/-- The engine in the loop of `process`, `n` iterations done: `L` and `R` are its halves, `I` its counter, and no outcome is shown
(R190). -/
structure InLoop (block : Block) (key : Key) (mode : Mode) (n : Nat) (u : State) : Prop where
  busy : u.st = .busy
  keySampled : u.key = key
  modeSampled : modeOf u.op = mode
  counter : u.i.toNat = n + 1
  noOutcome : outcome u = { err := Config.errNone, blockOut := none, subkeyOut := none, halfOut := none }
  halves : ∃ l0 r0, initialHalves block = .ok (l0, r0) ∧ rounds key mode n l0 r0 = .ok (toSeq u.l, toSeq u.r)

section InLoop

variable {block : Block} {key : Key} {mode : Mode} {n : Nat} {s u : State}

/-- What the host drives next is no part of the loop. -/
theorem InLoop.nextPins (h : InLoop block key mode n u) : InLoop block key mode n (nextPins u) where
  busy := by rw [nextPins_st, h.busy]
  keySampled := by rw [nextPins_key, h.keySampled]
  modeSampled := by rw [nextPins_op, h.modeSampled]
  counter := by rw [nextPins_i, h.counter]
  noOutcome := by simpa [outcome] using h.noOutcome
  halves := by simpa using h.halves

/-- No error and no result is shown in the loop (R182). -/
theorem InLoop.err_noResult (h : InLoop block key mode n u) : u.err = 0#2 ∧ NoResult u :=
  ⟨congrArg OpOutcome.err h.noOutcome, congrArg OpOutcome.blockOut h.noOutcome, congrArg OpOutcome.subkeyOut h.noOutcome,
    congrArg OpOutcome.halfOut h.noOutcome⟩

/-- The accept of a process command enters the loop (R186). -/
theorem inLoop_of_accept (hready : Ready s) (hr : s.pins.rst = false) (hs : s.pins.start = true)
    (hcmd : decode s.pins.cmd = processInstr block key mode) : ∃ u, step s = .next u ∧ InLoop block key mode 0 u := by
  obtain ⟨op, hmode, hexec⟩ := exec_processInstr block key mode hready
  obtain ⟨u, hacc, hb, hop, hkey, hi, hinit, hout, -⟩ := acceptProcess_starts_loop op block key s
  have hreact : react s = .next u := by rw [react_presented s hr hs, hcmd, hexec, hacc]
  have hloop : InLoop block key mode 0 u :=
    { busy := hb, keySampled := hkey, modeSampled := by rw [hop, hmode], counter := by rw [hi]; rfl
      noOutcome := hout, halves := ⟨_, _, hinit, rfl⟩ }
  exact ⟨_, step_of_react hreact, hloop.nextPins⟩

/-- A round step is the next iteration of the loop (R187). -/
theorem InLoop.step_round (h : InLoop block key mode n u) (hn : n < 16) (hr : u.pins.rst = false) :
    ∃ t, step u = .next t ∧ InLoop block key mode (n + 1) t := by
  obtain ⟨l0, r0, hinit, hloop⟩ := h.halves
  have h16 : u.i.toNat ≤ 16 := by rw [h.counter]; omega
  obtain ⟨r, hbody, hstep⟩ := Machine.step_round h.busy hr (by rw [h.counter]; omega) h16
  rw [h.keySampled, h.modeSampled, h.counter] at hbody
  have hnext : InLoop block key mode (n + 1) { u with l := u.r, r := r, i := u.i + 1#5 } :=
    { busy := h.busy, keySampled := h.keySampled, modeSampled := h.modeSampled
      counter := by rw [i_succ_toNat u h16, h.counter]
      noOutcome := h.noOutcome, halves := ⟨l0, r0, hinit, rounds_succ_eq_ok.2 ⟨_, _, hloop, hbody⟩⟩ }
  exact ⟨_, hstep, hnext.nextPins⟩

/-- The final step ends the loop with the value of `process` and shows nothing else (R188). -/
theorem InLoop.step_final (h : InLoop block key mode 16 u) (hr : u.pins.rst = false) :
    ∃ t v, step u = .next t ∧ process block key mode = .ok v ∧ t.st = .done ∧
      outcome t = { err := Config.errNone, blockOut := some v, subkeyOut := none, halfOut := none } := by
  obtain ⟨l0, r0, hinit, hloop⟩ := h.halves
  obtain ⟨herr, -, hsubkey, hhalf⟩ := h.err_noResult
  obtain ⟨v, hv, hstep⟩ := Machine.step_final h.busy hr h.counter
  exact ⟨_, v, hstep, process_eq_ok.2 ⟨l0, r0, _, _, hinit, hloop, hv⟩, by simp,
    by simp [outcome, herr, hsubkey, hhalf, Config.errNone]⟩

/-- After the accept and `n` round steps `n` iterations are done, for a host that does not reset (R190). -/
theorem runsTo_inLoop (hready : Ready s) (hr : NoResetFor 17 s) (hs : s.pins.start = true)
    (hcmd : decode s.pins.cmd = processInstr block key mode) (hn : n ≤ 16) :
    ∃ u, RunsTo (n + 1) s u ∧ InLoop block key mode n u ∧ NoResetFor (16 - n) u := by
  induction n with
  | zero =>
    have ⟨hrst, _⟩ := hr
    obtain ⟨u, hstep, hloop⟩ := inLoop_of_accept hready hrst hs hcmd
    exact ⟨u, runsTo_one hstep, hloop, noResetFor_of_step hr hstep⟩
  | succ n ih =>
    obtain ⟨u, hrun, hloop, hquiet⟩ := ih (Nat.le_of_succ_le hn)
    have ⟨hrst, _⟩ := hquiet
    obtain ⟨t, hstep, hnext⟩ := hloop.step_round hn hrst
    rw [show 16 - n = 16 - (n + 1) + 1 by omega] at hquiet
    exact ⟨t, runsTo_add hrun (runsTo_one hstep), hnext, noResetFor_of_step hquiet hstep⟩

end InLoop

/-- Settles O50: `runsTo_inLoop`, by induction on the round steps. -/
theorem roundStepsFollowTheLoop : Obligations.RoundStepsFollowTheLoop := by
  unfold Obligations.RoundStepsFollowTheLoop
  intro s block key mode n hready hr hs hcmd hn
  obtain ⟨u, hrun, hloop, -⟩ := runsTo_inLoop hready hr hs hcmd hn
  obtain ⟨l0, r0, hinit, hhalves⟩ := hloop.halves
  exact ⟨u, l0, r0, hrun, hinit, hhalves, hloop.busy, hloop.counter, hloop.keySampled, hloop.modeSampled⟩

/-- Settles O49: up to 17 steps the engine is in the loop, and from its end the final step gives the value of `process`. -/
theorem eighteenStepsRefineProcess : Obligations.EighteenStepsRefineProcess := by
  unfold Obligations.EighteenStepsRefineProcess
  intro s block key mode hready hr hs hcmd
  constructor
  · intro n h1 h17
    obtain ⟨m, rfl⟩ : ∃ m, n = m + 1 := ⟨n - 1, by omega⟩
    obtain ⟨u, hrun, hloop, -⟩ := runsTo_inLoop hready hr hs hcmd (Nat.le_of_succ_le_succ h17)
    obtain ⟨herr, hnone⟩ := hloop.err_noResult
    exact ⟨u, hrun, by simp [busy, hloop.busy], by simp [done, hloop.busy], herr, hnone⟩
  · obtain ⟨u, hrun, hloop, hrst, -⟩ := runsTo_inLoop hready hr hs hcmd le_rfl
    obtain ⟨t, v, hstep, hv, hd, hout⟩ := hloop.step_final hrst
    exact ⟨t, v, runsTo_add hrun (runsTo_one hstep), hv, hd, congrArg OpOutcome.err hout, congrArg OpOutcome.blockOut hout,
      congrArg OpOutcome.subkeyOut hout, congrArg OpOutcome.halfOut hout⟩

/-! ## The outcome of an operation -/

/-- Settles O52: from either state the operation ends with the outcome of the command's function, which names no state. -/
theorem outcomeDependsOnlyOnTheCommand : Obligations.OutcomeDependsOnlyOnTheCommand := by
  unfold Obligations.OutcomeDependsOnlyOnTheCommand
  intro i s1 s2 h1 h2
  obtain ⟨t1, hissue1, -, hout1⟩ := everyOperationEndsWithTheFunctionLevelOutcome i s1 h1
  obtain ⟨t2, hissue2, -, hout2⟩ := everyOperationEndsWithTheFunctionLevelOutcome i s2 h2
  exact ⟨t1, t2, hissue1, hissue2, Option.some.inj (hout1.symm.trans hout2)⟩

end Sys2Proof.Machine

/-! PROOFS. Errors and recovery (60_exceptions.md): a command does from FAULT or DONE what it does from IDLE (R209), an operation ends
with its result or with an error (R206), and LengthMismatch is never reported (R203). -/

namespace Sys2Proof.Machine

/-! ## The functions on port operands -/

/-- `KeySchedule` gives a subkey that a register holds, or the round number is invalid (42_key_schedule.md R150, R151). -/
theorem keySchedule_toSeq_ok_or_invalid (key : Key) (round : BitVec 8) :
    (∃ v : Subkey, keySchedule key round.toNat = .ok (toSeq v)) ∨ (round.toNat = 0 ∨ 16 < round.toNat) := by
  obtain ⟨h1, h16⟩ | hbad : (1 ≤ round.toNat ∧ round.toNat ≤ 16) ∨ (round.toNat = 0 ∨ 16 < round.toNat) := by omega
  · obtain ⟨k, hk, hlen⟩ := keySchedule_ok key round.toNat h1 h16
    obtain ⟨v, -, rfl⟩ := pack_spec 48 k hlen
    exact .inl ⟨v, hk⟩
  · exact .inr hbad

/-- On port operands `FeistelRound` gives a half that a register holds (R203). -/
theorem feistelRound_toSeq_ok (half : Half) (subkey : Subkey) :
    ∃ v : Half, feistelRound (toSeq half) (toSeq subkey) = .ok (toSeq v) := by
  obtain ⟨f, hf, hlen⟩ := feistelRound_ok _ _ (toSeq_length half) (toSeq_length subkey)
  obtain ⟨v, -, rfl⟩ := pack_spec 32 f hlen
  exact ⟨v, hf⟩

/-! ## Recovery -/

/-- `s` as if the engine were in IDLE with no operation before: no error, no result, and `OP` at 00 (R209). -/
def clearedIdle (s : State) : State :=
  { s with st := .idle, err := 0#2, op := 0b00#2, blockOut := none, subkeyOut := none, halfOut := none }

/-- A cleared engine is ready. -/
theorem ready_clearedIdle (s : State) : Ready (clearedIdle s) := nofun

/-- The accept of KEYSCHED where `KeySchedule` gives a subkey (42_key_schedule.md R158). -/
theorem acceptKeysched_of_keySchedule {key : Key} {round : BitVec 8} {v : Subkey}
    (h : keySchedule key round.toNat = .ok (toSeq v)) (s : State) :
    acceptKeysched key round s = .next { beginAccept Config.opKeysched s with subkeyOut := some v, st := .done } := by
  simp [acceptKeysched, h, pack_toSeq, bind, Except.bind, pure, Except.pure]

/-- The accept of FROUND where `FeistelRound` gives a half (43_feistel.md R172). -/
theorem acceptFround_of_feistelRound {half v : Half} {subkey : Subkey}
    (h : feistelRound (toSeq half) (toSeq subkey) = .ok (toSeq v)) (s : State) :
    acceptFround half subkey s = .next { beginAccept Config.opFround s with halfOut := some v, st := .done } := by
  simp [acceptFround, h, pack_toSeq, bind, Except.bind, pure, Except.pure]

/-- The accept of a process command writes everything that clearing writes (44_engine.md R186). -/
theorem acceptProcess_clearedIdle (op : BitVec 2) (block : Block) (key : Key) (s : State) :
    acceptProcess op block key (clearedIdle s) = acceptProcess op block key s := by
  obtain ⟨u, -, -, -, -, -, hinit, -⟩ := acceptProcess_starts_loop op block key s
  rw [acceptProcess_of_initialHalves hinit, acceptProcess_of_initialHalves hinit]
  rfl

/-- The accept of KEYSCHED, with its result or its error, writes everything that clearing writes (42_key_schedule.md R158). -/
theorem acceptKeysched_clearedIdle (key : Key) (round : BitVec 8) (s : State) :
    acceptKeysched key round (clearedIdle s) = acceptKeysched key round s := by
  obtain ⟨v, hk⟩ | hbad := keySchedule_toSeq_ok_or_invalid key round
  · rw [acceptKeysched_of_keySchedule hk, acceptKeysched_of_keySchedule hk]
    rfl
  · rw [acceptKeysched_invalid key round _ hbad, acceptKeysched_invalid key round _ hbad]
    rfl

/-- The accept of FROUND writes everything that clearing writes (43_feistel.md R172). -/
theorem acceptFround_clearedIdle (half : Half) (subkey : Subkey) (s : State) :
    acceptFround half subkey (clearedIdle s) = acceptFround half subkey s := by
  obtain ⟨v, hf⟩ := feistelRound_toSeq_ok half subkey
  rw [acceptFround_of_feistelRound hf, acceptFround_of_feistelRound hf]
  rfl

/-- When its accept does, a command goes on from a ready engine as from the cleared one. -/
theorem present_clearedIdle {a : State → Host.Outcome State Fault Refusal} {s : State} (h : Ready s)
    (ha : a (clearedIdle s) = a s) : present a s = present a (clearedIdle s) := by
  rw [present_ready a s h, present_ready a _ (ready_clearedIdle s), ha]

/-- Settles O32: the cleared state of the statement is `clearedIdle`, and no command's accept tells it from the ready one. -/
theorem acceptDoesNotDependOnAnEarlierError : Obligations.AcceptDoesNotDependOnAnEarlierError := by
  unfold Obligations.AcceptDoesNotDependOnAnEarlierError
  intro i s hready
  cases i with
  | encipher block key => exact present_clearedIdle hready (acceptProcess_clearedIdle Config.opEncipher block key s)
  | decipher block key => exact present_clearedIdle hready (acceptProcess_clearedIdle Config.opDecipher block key s)
  | keysched key round => exact present_clearedIdle hready (acceptKeysched_clearedIdle key round s)
  | fround half subkey => exact present_clearedIdle hready (acceptFround_clearedIdle half subkey s)

/-! ## A result or an error -/

/-- Settles O33: the accept of each command as O29, O30 and O31 give it, KEYSCHED with its two cases. -/
theorem errorsArePreciseAndLeaveNoResult : Obligations.ErrorsArePreciseAndLeaveNoResult := by
  unfold Obligations.ErrorsArePreciseAndLeaveNoResult
  intro i s hready
  cases i with
  | encipher block key =>
    obtain ⟨_, _, _, -, -, -, hexec, -⟩ := processCommandsAreAccepted s block key hready
    exact ⟨_, hexec, .inl ⟨rfl, rfl, rfl, rfl, rfl⟩⟩
  | decipher block key =>
    obtain ⟨_, _, _, -, -, -, -, hexec⟩ := processCommandsAreAccepted s block key hready
    exact ⟨_, hexec, .inl ⟨rfl, rfl, rfl, rfl, rfl⟩⟩
  | keysched key round =>
    obtain ⟨hvalid, hinvalid, -⟩ := keyschedGivesTheSubkeyOrInvalidRound s key round hready
    obtain ⟨h1, h16⟩ | hbad : (1 ≤ round.toNat ∧ round.toNat ≤ 16) ∨ (round.toNat = 0 ∨ 16 < round.toNat) := by omega
    · obtain ⟨_, v, -, -, hexec⟩ := hvalid h1 h16
      exact ⟨_, hexec, .inr (.inl ⟨rfl, rfl, by simp [OnlyResultOfOp, Config.opKeysched, Config.opFround], .subkey v, rfl⟩)⟩
    · exact ⟨_, hinvalid hbad, .inr (.inr ⟨rfl, rfl, rfl, rfl, rfl⟩)⟩
  | fround half subkey =>
    obtain ⟨_, v, -, -, hexec, -⟩ := froundGivesTheRoundFunction s half subkey hready
    exact ⟨_, hexec, .inr (.inl ⟨rfl, rfl, by simp [OnlyResultOfOp, Config.opKeysched, Config.opFround], .half v, rfl⟩)⟩

/-! ## No LengthMismatch -/

/-- The function of a command gives its result, or InvalidRound and no other error (R203, R208). -/
theorem functionLevel_ok_or_invalidRound (i : Instr) :
    (∃ v, functionLevel i = .ok v) ∨ functionLevel i = .error .invalidRound := by
  cases i with
  | encipher block key =>
    obtain ⟨v, hv⟩ := processIsTotal block key .encipher
    exact .inl ⟨_, functionLevel_processInstr hv⟩
  | decipher block key =>
    obtain ⟨v, hv⟩ := processIsTotal block key .decipher
    exact .inl ⟨_, functionLevel_processInstr hv⟩
  | keysched key round =>
    obtain ⟨v, hk⟩ | hbad := keySchedule_toSeq_ok_or_invalid key round
    · exact .inl ⟨_, functionLevel_keysched hk⟩
    · exact .inr (functionLevel_keysched_error (keySchedule_invalidRound key hbad))
  | fround half subkey =>
    obtain ⟨v, hf⟩ := feistelRound_toSeq_ok half subkey
    exact .inl ⟨_, functionLevel_fround hf⟩

/-- From the invariant the engine always has a next step (44_engine.md R189). -/
theorem step_next_of_stateInv {s : State} (h : StateInv s) : ∃ t, step s = .next t := by
  obtain ⟨t, hreact, -⟩ := stepRelation s h
  exact ⟨_, step_of_react hreact⟩

/-- Settles O43: the next state is again one of the invariant, whose error codes are 0 and 1, and the functions raise only
InvalidRound. -/
theorem noStepStopsOrReportsLengthMismatch : Obligations.NoStepStopsOrReportsLengthMismatch := by
  unfold Obligations.NoStepStopsOrReportsLengthMismatch
  refine ⟨fun s hinv => ?_, fun i => ?_⟩
  · obtain ⟨t, hstep⟩ := step_next_of_stateInv hinv
    obtain ⟨-, -, herr⟩ := statusFlagsAreConsistent t (everyStepKeepsTheInvariant s t hinv hstep)
    exact ⟨t, hstep, herr⟩
  · obtain ⟨v, hi⟩ | hi := functionLevel_ok_or_invalidRound i
    · simp [hi, Res.aborts]
    · simp [hi, Res.aborts]

end Sys2Proof.Machine

/-! PROOFS. Reset and hazards (70_reset_and_hazards.md): a reset is taken from any state (R230), the operation in progress does not look
at what the host drives and comes to its end (R240, R241, R246), a result can be read exactly while it is valid (R243), and a held
`start` repeats the operation (R242). -/

namespace Sys2Proof.Machine

/-! ## Reset -/

/-- A reset step leaves the engine as R230 says, whatever the host drives next. -/
theorem step_reset {s : State} (hr : s.pins.rst = true) :
    step s = .next (nextPins (resetStep s)) ∧ AfterReset (nextPins (resetStep s)) :=
  ⟨step_of_react (react_reset s hr), by simp [AfterReset, NoResult, busy, done]⟩

/-- A host that holds `rst` for `n + 1` more steps holds it for `n` more steps after one. -/
theorem resetHeld_nextPins {n : Nat} {s : State} (hr : s.pins.rst = true) (hheld : ∀ p ∈ s.later.take (n + 1), p.rst = true) :
    (nextPins s).pins.rst = true ∧ ∀ p ∈ (nextPins s).later.take n, p.rst = true := by
  unfold nextPins
  cases hl : s.later with
  | nil => simp [hr, hl]
  | cons p rest => simpa [hl] using hheld

/-- Settles O39: by induction on the steps for which `rst` is held, each of which is a reset step. -/
theorem resetFromAnyState : Obligations.ResetFromAnyState := by
  unfold Obligations.ResetFromAnyState
  intro s n
  induction n generalizing s with
  | zero =>
    intro hr _
    obtain ⟨hstep, hafter⟩ := step_reset hr
    exact ⟨_, runsTo_one hstep, hafter⟩
  | succ n ih =>
    intro hr hheld
    obtain ⟨hstep, -⟩ := step_reset hr
    obtain ⟨hr', hheld'⟩ := resetHeld_nextPins (s := resetStep s) hr hheld
    obtain ⟨t, hrun, hafter⟩ := ih _ hr' hheld'
    exact ⟨t, runsTo_succ hstep hrun, hafter⟩

/-! ## The operation in progress -/

/-- A command presented to a busy engine has the step of the operation in progress (R241; log 5). -/
theorem exec_busy (i : Instr) {s : State} (hb : s.st = .busy) : exec i s = advance s := by
  cases i <;> exact present_busy _ s hb

/-- The reaction of a busy engine that is not reset shows what the host drives and does not depend on it (R240, R241). -/
theorem react_drive_busy {p : Inputs} (hr : p.rst = false) (q : List Inputs) {s : State} (hb : s.st = .busy) :
    react (drive p q s) = onNext (advance s) fun t => .next (drive p q t) := by
  rw [react_busy (drive p q s) hr hb, advance_drive]

/-- Settles O38: `exec` and the reaction of a busy engine are both `advance`, which does not look at the ports. -/
theorem commandWhileBusyIsIgnored : Obligations.CommandWhileBusyIsIgnored := by
  unfold Obligations.CommandWhileBusyIsIgnored
  refine fun s p hb hr => ⟨fun i => exec_busy i hb, fun t hquiet => ?_⟩
  have hp := react_drive_busy hr s.later hb
  have hq := (react_drive_busy (p := .quiet) rfl s.later hb).symm.trans hquiet
  cases hadv : advance s with
  | next u =>
    rw [hadv] at hp hq
    obtain rfl := Host.Outcome.next.inj hq
    exact ⟨_, hp, rfl⟩
  | fault e => rw [hadv] at hq; nomatch hq
  | refused e => rw [hadv] at hq; nomatch hq

/-- A host that does not reset for `n` steps does not reset for fewer. -/
theorem noResetFor_mono {m n : Nat} (hmn : m ≤ n) {s : State} (h : NoResetFor n s) : NoResetFor m s := by
  obtain ⟨hnow, hlater⟩ := h
  exact ⟨hnow, fun p hp => hlater p ((List.take_sublist_take_left hmn).subset hp)⟩

/-- After a step the host drives its next levels, on the same engine. -/
theorem nextPins_eq_drive (s : State) : nextPins s = drive (nextPins s).pins (nextPins s).later s := by
  unfold nextPins
  cases s.later <;> rfl

/-- A busy engine that the host drives as it likes, short of a reset, goes on as the operation in progress does (R240). -/
theorem step_drive_of_advance {s t : State} (hb : s.st = .busy) (hadv : advance s = .next t) {p : Inputs} {q : List Inputs}
    (hr : p.rst = false) : step (drive p q s) = .next (nextPins (drive p q t)) :=
  step_of_react (by rw [react_drive_busy hr q hb, hadv, onNext_next])

/-- `t` is the engine that `n` steps of the operation in progress lead to from `s`, for every host that does not reset before the
final step. -/
def LeadsTo (n : Nat) (s t : State) : Prop :=
  ∀ p q, NoResetFor (17 - s.i.toNat) (drive p q s) → ∃ p' q', RunsTo n (drive p q s) (drive p' q' t)

/-- No step leads anywhere else. -/
theorem leadsTo_zero (s : State) : LeadsTo 0 s s := fun p q _ => ⟨p, q, runsTo_zero _⟩

/-- A round step comes before what follows from the state it leaves (R187). -/
theorem leadsTo_round {n : Nat} {s u t : State} (hb : s.st = .busy) (hadv : advance s = .next u) (h16 : s.i.toNat ≤ 16)
    (hi : u.i.toNat = s.i.toNat + 1) (h : LeadsTo n u t) : LeadsTo (n + 1) s t := by
  intro p q hquiet
  have ⟨hr, _⟩ := hquiet
  have hstep := step_drive_of_advance hb hadv (q := q) hr
  rw [show 17 - s.i.toNat = 17 - u.i.toNat + 1 by omega] at hquiet
  have hrest := noResetFor_of_step hquiet hstep
  rw [nextPins_eq_drive] at hstep hrest
  obtain ⟨p', q', hrun⟩ := h _ _ hrest
  exact ⟨p', q', runsTo_succ hstep hrun⟩

/-- The final step ends the operation (R188). -/
theorem leadsTo_final {s t : State} (hb : s.st = .busy) (hadv : advance s = .next t) : LeadsTo 1 s t := by
  intro p q ⟨hr, _⟩
  have hstep := step_drive_of_advance hb hadv (q := q) hr
  rw [nextPins_eq_drive] at hstep
  exact ⟨_, _, runsTo_one hstep⟩

/-- A busy engine is led on for as long as the operation lasts, and to its end without error in `18 - I` steps (R189, R246). -/
theorem leadsTo_of_busy (n : Nat) {s : State} (hb : s.st = .busy) (h1 : 1 ≤ s.i.toNat) (h17 : s.i.toNat ≤ 17)
    (hn : n + s.i.toNat ≤ 18) :
    ∃ t, LeadsTo n s t ∧ (n + s.i.toNat = 18 → t.st = .done ∧ t.err = s.err) := by
  induction n generalizing s with
  | zero => exact ⟨s, leadsTo_zero s, fun h => by omega⟩
  | succ n ih =>
    obtain h16 | hlast : s.i.toNat ≤ 16 ∨ s.i.toNat = 17 := by omega
    · obtain ⟨r, -, hround⟩ := roundStep_next s h1 h16
      have hi := i_succ_toNat s h16
      obtain ⟨t, hlead, hend⟩ := ih (s := { s with l := s.r, r := r, i := s.i + 1#5 }) hb
        (by rw [hi]; omega) (by rw [hi]; omega) (by rw [hi]; omega)
      exact ⟨t, leadsTo_round hb ((advance_round s h16).trans hround) h16 hi hlead, fun h => hend (by rw [hi]; omega)⟩
    · obtain ⟨v, -, hfinal⟩ := finalStep_next s
      obtain rfl : n = 0 := by omega
      exact ⟨_, leadsTo_final hb ((advance_final s hlast).trans hfinal), fun _ => ⟨rfl, rfl⟩⟩

/-- Settles O53: both hosts are led to one engine. -/
theorem operationInProgressIgnoresTheOperandPorts : Obligations.OperationInProgressIgnoresTheOperandPorts := by
  unfold Obligations.OperationInProgressIgnoresTheOperandPorts
  intro s p1 p2 q1 q2 n ⟨hbusy, _⟩ hb hquiet1 hquiet2 hn
  obtain ⟨-, h1, h17, -⟩ := hbusy hb
  obtain ⟨t, hlead, -⟩ := leadsTo_of_busy n hb h1 h17 hn
  obtain ⟨_, _, hrun1⟩ := hlead p1 q1 (noResetFor_mono (by omega) hquiet1)
  obtain ⟨_, _, hrun2⟩ := hlead p2 q2 (noResetFor_mono (by omega) hquiet2)
  exact ⟨_, _, hrun1, hrun2, rfl, rfl, rfl, rfl, rfl, rfl, rfl, rfl, rfl, rfl⟩

/-- Settles O55: the host of `s` is one of those that `leadsTo_of_busy` speaks of. -/
theorem busyEngineFinishes : Obligations.BusyEngineFinishes := by
  unfold Obligations.BusyEngineFinishes
  intro s ⟨hbusy, _⟩ hb hquiet
  obtain ⟨-, h1, h17, herr, -⟩ := hbusy hb
  have hn : 18 - s.i.toNat + s.i.toNat = 18 := by omega
  obtain ⟨t, hlead, hend⟩ := leadsTo_of_busy _ hb h1 h17 hn.le
  obtain ⟨p, q, hrun⟩ := hlead s.pins s.later (noResetFor_mono (m := 17 - s.i.toNat) (by omega) hquiet)
  obtain ⟨hd, herr'⟩ := hend hn
  exact ⟨_, drive p q t, hn, hrun, by simp [done, hd], herr'.trans herr⟩

/-! ## Reading a result -/

/-- The register behind a result port holds a value (10_state.md R33). -/
def HoldsResult (s : State) : ResultPort → Prop
  | .blockOut => s.blockOut.isSome = true
  | .subkeyOut => s.subkeyOut.isSome = true
  | .halfOut => s.halfOut.isSome = true

/-- Reading a result port gives a value exactly when its register holds one, and is the host's fault otherwise (R33). -/
theorem readResult_spec (port : ResultPort) (s : State) :
    ((∃ v, readResult port s = .next v) ∧ HoldsResult s port) ∨
      (readResult port s = .fault (.readNoValue port) ∧ ¬ HoldsResult s port) := by
  cases port with
  | blockOut => cases h : s.blockOut <;> simp [readResult, HoldsResult, h]
  | subkeyOut => cases h : s.subkeyOut <;> simp [readResult, HoldsResult, h]
  | halfOut => cases h : s.halfOut <;> simp [readResult, HoldsResult, h]

/-- A port can be read exactly when its register holds a value. -/
theorem readResult_next_iff {port : ResultPort} {s : State} : (∃ v, readResult port s = .next v) ↔ HoldsResult s port := by
  obtain ⟨hv, h⟩ | ⟨hfault, h⟩ := readResult_spec port s
  · exact iff_of_true hv h
  · exact iff_of_false (by simp [hfault]) h

/-- Where no result register has a value no port can be read. -/
theorem not_holdsResult_of_noResult {s : State} (h : NoResult s) (port : ResultPort) : ¬ HoldsResult s port := by
  obtain ⟨hblock, hsubkey, hhalf⟩ := h
  cases port <;> simp [HoldsResult, hblock, hsubkey, hhalf]

/-- Which result port belongs to the command on the ports, by its opcode (30_encoding.md R81, R82). -/
theorem resultPort_decode_iff (c : CommandPorts) :
    (resultPort (decode c) = .blockOut ↔ c.op.getLsbD 1 = false) ∧
    (resultPort (decode c) = .subkeyOut ↔ c.op = Config.opKeysched) ∧
    (resultPort (decode c) = .halfOut ↔ c.op = Config.opFround) := by
  obtain hop | hop | hop | hop := opcode_cases c.op
  · simp [decode_of_opEncipher hop, resultPort, hop, Config.opEncipher, Config.opKeysched, Config.opFround]
  · simp [decode_of_opDecipher hop, resultPort, hop, Config.opDecipher, Config.opKeysched, Config.opFround]
  · simp [decode_of_opKeysched hop, resultPort, hop, Config.opKeysched, Config.opFround]
  · simp [decode_of_opFround hop, resultPort, hop, Config.opKeysched, Config.opFround]

/-- Where exactly the register of the operation named by `OP` has a value, the port that can be read is that command's (R243). -/
theorem holdsResult_iff_of_onlyResultOfOp {s : State} (h : OnlyResultOfOp s) (port : ResultPort) :
    HoldsResult s port ↔ resultPort (decode { CommandPorts.zero with op := s.op }) = port := by
  obtain ⟨hblock, hsubkey, hhalf⟩ := h
  obtain ⟨hblock', hsubkey', hhalf'⟩ := resultPort_decode_iff { CommandPorts.zero with op := s.op }
  cases port with
  | blockOut => exact hblock.trans hblock'.symm
  | subkeyOut => exact hsubkey.trans hsubkey'.symm
  | halfOut => exact hhalf.trans hhalf'.symm

/-- Settles O48: in DONE the port is the command's own, and in the other states of the invariant there is no result, and `done = 0` or
`err = 1`. -/
theorem resultsAreReadableExactlyWhenValid : Obligations.ResultsAreReadableExactlyWhenValid := by
  unfold Obligations.ResultsAreReadableExactlyWhenValid
  intro s port ⟨hbusy, hdone, hfault, hidle⟩
  constructor
  · rw [readResult_next_iff]
    cases hst : s.st with
    | busy =>
      obtain ⟨-, -, -, -, hnone⟩ := hbusy hst
      exact iff_of_false (not_holdsResult_of_noResult hnone port) (by simp [done, hst])
    | done =>
      obtain ⟨herr, hresult⟩ := hdone hst
      rw [holdsResult_iff_of_onlyResultOfOp hresult]
      simp [done, hst, herr]
    | fault =>
      obtain ⟨herr, -, hnone⟩ := hfault hst
      exact iff_of_false (not_holdsResult_of_noResult hnone port) (by simp [herr])
    | idle =>
      obtain ⟨-, hnone⟩ := hidle hst
      exact iff_of_false (not_holdsResult_of_noResult hnone port) (by simp [done, hst])
  · intro hno
    obtain ⟨hv, -⟩ | ⟨hread, -⟩ := readResult_spec port s
    · exact absurd hv hno
    · exact hread

/-! ## `start` held -/

/-- A step of a host that does not reset and has nothing more to drive changes nothing of the host's (log 2). -/
theorem sameHost_of_step {s t : State} (hr : s.pins.rst = false) (hq : s.later = []) (hstep : step s = .next t) :
    SameHost s t := by
  obtain ⟨u, hu, rfl⟩ := react_of_step hstep
  have hrow := reactStep_of_react hu
  obtain ⟨hpins, hlater⟩ := hrow.host_kept
  rw [nextPins_of_later_nil u (hlater.trans hq)]
  refine ⟨hpins, hlater, ?_⟩
  cases hrow with
  | reset hr' => simp [hr] at hr'
  | quiet hr' hrdy hs => rfl
  | accept hr' hrdy hs ht => cases ht <;> rfl
  | busy hr' hb ht => cases ht <;> rfl

/-- A run of such a host changes nothing of the host's. -/
theorem sameHost_of_runsTo {n : Nat} {s t : State} (hr : s.pins.rst = false) (hq : s.later = []) (hrun : RunsTo n s t) :
    SameHost s t := by
  induction n generalizing s with
  | zero =>
    obtain rfl := runsTo_unique (runsTo_zero s) hrun
    exact ⟨rfl, rfl, rfl⟩
  | succ n ih =>
    obtain ⟨u, hstep, hrest⟩ := runsTo_succ_iff.1 hrun
    obtain ⟨hpins, hlater, hfresh⟩ := sameHost_of_step hr hq hstep
    obtain ⟨hpins', hlater', hfresh'⟩ := ih (by rw [hpins, hr]) (hlater.trans hq) hrest
    exact ⟨hpins'.trans hpins, hlater'.trans hlater, hfresh'.trans hfresh⟩

/-- A host that does not reset and has nothing more to drive never resets (log 2). -/
theorem noResetFor_of_later_nil (n : Nat) {s : State} (hr : s.pins.rst = false) (hq : s.later = []) : NoResetFor n s :=
  ⟨hr, by simp [hq]⟩

/-- The opcode on ports that carry a process command is the opcode of its mode (30_encoding.md R83). -/
theorem op_of_decode_processInstr {c : CommandPorts} {block : Block} {key : Key} {mode : Mode}
    (h : decode c = processInstr block key mode) : c.op = (encode (processInstr block key mode)).op := by
  rw [← h, ← encodeOnto_op _ c, encodeOnto_decode]

/-- What a process command writes when a ready engine accepts it, whatever its mode (R186). -/
theorem exec_processInstr_ready (block : Block) (key : Key) (mode : Mode) {s : State} (hready : Ready s) :
    ∃ l r, exec (processInstr block key mode) s = .next { s with
      st := .busy, op := (encode (processInstr block key mode)).op, key := key, l := l, r := r, i := 1#5, err := 0#2
      blockOut := none, subkeyOut := none, halfOut := none } := by
  obtain ⟨_, l, r, -, -, -, hencipher, hdecipher⟩ := processCommandsAreAccepted s block key hready
  cases mode with
  | encipher => exact ⟨l, r, hencipher⟩
  | decipher => exact ⟨l, r, hdecipher⟩

/-- The step that accepts a process command presented to a ready engine by a host that has nothing more to drive (R186). -/
theorem step_accept_processInstr {s : State} {block : Block} {key : Key} {mode : Mode} (hready : Ready s)
    (hr : s.pins.rst = false) (hq : s.later = []) (hs : s.pins.start = true)
    (hcmd : decode s.pins.cmd = processInstr block key mode) :
    ∃ l r, step s = .next { s with
      st := .busy, op := s.pins.cmd.op, key := key, l := l, r := r, i := 1#5, err := 0#2
      blockOut := none, subkeyOut := none, halfOut := none } := by
  obtain ⟨l, r, hexec⟩ := exec_processInstr_ready block key mode hready
  rw [← hcmd, ← react_presented s hr hs, hcmd, ← op_of_decode_processInstr hcmd] at hexec
  exact ⟨l, r, (step_of_react hexec).trans (congrArg _ (nextPins_of_later_nil _ hq))⟩

/-- Settles O54: after 18 steps the engine is ready with the same command on its ports, and the second operation is as the first. -/
theorem heldStartRepeatsTheOperation : Obligations.HeldStartRepeatsTheOperation := by
  unfold Obligations.HeldStartRepeatsTheOperation
  intro s block key mode hready hr hq hs hcmd
  obtain ⟨-, t, v, hrun, hv, hd, -, hout, -⟩ :=
    eighteenStepsRefineProcess s block key mode hready (noResetFor_of_later_nil 17 hr hq) hs hcmd
  obtain ⟨hpins, hlater, hfresh⟩ := sameHost_of_runsTo hr hq hrun
  have hready' : Ready t := by simp [Ready, hd]
  have hq' : t.later = [] := hlater.trans hq
  rw [← hpins] at hr hs hcmd
  obtain ⟨hloop, w, v', hrun', hv', hd', -, hout', -⟩ :=
    eighteenStepsRefineProcess t block key mode hready' (noResetFor_of_later_nil 17 hr hq') hs hcmd
  obtain rfl : v = v' := Except.ok.inj (hv.symm.trans hv')
  obtain ⟨l, r, haccept⟩ := step_accept_processInstr hready' hr hq' hs hcmd
  refine ⟨t, _, w, v, hv, hrun, hd, hout, runsTo_add hrun (runsTo_one haccept), ?_, ?_, runsTo_add hrun hrun', hd', hout'⟩
  · rw [hpins, hlater, hfresh]
  · intro n h19 h35
    obtain ⟨m, rfl⟩ : ∃ m, n = 18 + m := ⟨n - 18, by omega⟩
    obtain ⟨x, hx, hb, -, -, hnone⟩ := hloop m (by omega) (by omega)
    exact ⟨x, runsTo_add hrun hx, hb, hnone⟩

end Sys2Proof.Machine
